-- ==== Sys2Proof/Word.lean ====
section
/-! DEFINITION. The word types of the block: a byte and the 32-bit command word (00_scope.md R6, 30_encoding.md R50). -/

namespace Sys2Proof

/-- A byte is 8 bits (00_scope.md R6); bit 0 is the least significant bit. -/
abbrev Byte := BitVec 8

/-- A command is one 32-bit word (30_encoding.md R50). -/
abbrev CmdWord := BitVec 32

end Sys2Proof
end

