-- ==== Sys2Proof/Syntax.lean ====
section
/-! DEFINITION. The instructions: one constructor per row of spec/opcode_table.json, thirteen commands (30_encoding.md R52)
and six micro-operations (R57), and the micro-operations by themselves, which are what a plan is a list of. -/

namespace Sys2Proof

/-- One constructor per row of the opcode table. Operand widths are those of 30_encoding.md R51. -/
inductive Instr where
  -- the I2C Engine
  | init
  | start (value : Byte)
  | write (value : Byte)
  | read (flag : Bool)
  | stop
  -- the Display Driver
  | dinit
  | cursor (column : Byte) (page : BitVec 3)
  | clear (count : BitVec 12)
  | stream (ptr len : BitVec 12)
  -- the Glyph Renderer
  | rchar (value : Byte)
  | rstr (ptr : BitVec 12)
  | rdigit (value : Byte)
  | rframe
  -- the line micro-operations
  | sdaLow
  | sdaRel
  | sclLow
  | sclRel
  | sdaSample
  | bothRel
  deriving DecidableEq, Repr

/-- A micro-operation, the element of a plan (00_scope.md R9, 10_state.md R14). -/
inductive Uop where
  | sdaLow
  | sdaRel
  | sclLow
  | sclRel
  | sdaSample
  | bothRel
  deriving DecidableEq, Repr

end Sys2Proof
end

