-- ==== Sys2Proof/Decode.lean ====
section
/-! DEFINITION. The decoder, total on every 32-bit word and every 3-bit code, refusing by name, and after it the encoder,
both written from the encoding tables of 30_encoding.md (R50 to R52, R57). -/

namespace Sys2Proof

/-- Why a word decodes to no instruction (30_encoding.md R58, conditions 1 and 2). -/
inductive DecodeError where
  /-- `op` is none of the thirteen opcodes of R52. -/
  | reservedOpcode (op : Byte)
  /-- A reserved bit of the opcode's format (R51) is not zero. -/
  | reservedBits
  /-- The micro-operation code is 6 or 7 (R57). -/
  | unusedCode
  deriving DecidableEq, Repr

/-- What an instruction is encoded as: a command word, or a micro-operation's 3-bit code. -/
inductive Encoded where
  | word (w : CmdWord)
  | code (c : BitVec 3)
  deriving DecidableEq, Repr

/-! ## The fields of the command word (R50) -/

/-- `op = W[31:24]`. -/
def opOf (w : CmdWord) : Byte := w.extractLsb' 24 8
/-- `x = W[23:12]`. -/
def xOf (w : CmdWord) : BitVec 12 := w.extractLsb' 12 12
/-- `y = W[11:0]`. -/
def yOf (w : CmdWord) : BitVec 12 := w.extractLsb' 0 12

/-! ## The seven formats (R51): the operands, and the reserved bits that must be zero -/

/-- Format N: `x` and `y` all zero. -/
def formatN (w : CmdWord) (i : Instr) : Except DecodeError Instr :=
  if xOf w = 0 ∧ yOf w = 0 then .ok i else .error .reservedBits

/-- Format V: `y[7:0]` is the value; `x` and `y[11:8]` zero. -/
def formatV (w : CmdWord) (f : Byte → Instr) : Except DecodeError Instr :=
  if xOf w = 0 ∧ (yOf w).extractLsb' 8 4 = 0 then .ok (f ((yOf w).extractLsb' 0 8)) else .error .reservedBits

/-- Format F: `y[0]` is the flag; `x` and `y[11:1]` zero. -/
def formatF (w : CmdWord) (f : Bool → Instr) : Except DecodeError Instr :=
  if xOf w = 0 ∧ (yOf w).extractLsb' 1 11 = 0 then .ok (f ((yOf w).getLsbD 0)) else .error .reservedBits

/-- Format P: `y[7:0]` is the column, `x[2:0]` the page; `y[11:8]` and `x[11:3]` zero. -/
def formatP (w : CmdWord) (f : Byte → BitVec 3 → Instr) : Except DecodeError Instr :=
  if (xOf w).extractLsb' 3 9 = 0 ∧ (yOf w).extractLsb' 8 4 = 0 then
    .ok (f ((yOf w).extractLsb' 0 8) ((xOf w).extractLsb' 0 3))
  else .error .reservedBits

/-- Format C: `y` is the count; `x` zero. -/
def formatC (w : CmdWord) (f : BitVec 12 → Instr) : Except DecodeError Instr :=
  if xOf w = 0 then .ok (f (yOf w)) else .error .reservedBits

/-- Format S: `x` is the pointer and `y` the length; no reserved bit. -/
def formatS (w : CmdWord) (f : BitVec 12 → BitVec 12 → Instr) : Except DecodeError Instr :=
  .ok (f (xOf w) (yOf w))

/-- Format Q: `x` is the pointer; `y` zero. -/
def formatQ (w : CmdWord) (f : BitVec 12 → Instr) : Except DecodeError Instr :=
  if yOf w = 0 then .ok (f (xOf w)) else .error .reservedBits

/-- The command a 32-bit word stands for: the opcode map of R52. Every other opcode is reserved (R59). -/
def decodeWord (w : CmdWord) : Except DecodeError Instr :=
  match (opOf w).toNat with
  | 0x00 => formatN w .init
  | 0x01 => formatV w .start
  | 0x02 => formatV w .write
  | 0x03 => formatF w .read
  | 0x04 => formatN w .stop
  | 0x10 => formatN w .dinit
  | 0x11 => formatP w .cursor
  | 0x12 => formatC w .clear
  | 0x13 => formatS w .stream
  | 0x20 => formatV w .rchar
  | 0x21 => formatQ w .rstr
  | 0x22 => formatV w .rdigit
  | 0x23 => formatN w .rframe
  | _ => .error (.reservedOpcode (opOf w))

/-! ## The micro-operation codes (R57) -/

/-- The micro-operation of a 3-bit code; 6 and 7 are unused. -/
def uopOfCode (c : BitVec 3) : Option Uop :=
  match c.toNat with
  | 0 => some .sdaLow
  | 1 => some .sdaRel
  | 2 => some .sclLow
  | 3 => some .sclRel
  | 4 => some .sdaSample
  | 5 => some .bothRel
  | _ => none

/-- The code of a micro-operation. -/
def Uop.code : Uop → BitVec 3
  | .sdaLow => 0
  | .sdaRel => 1
  | .sclLow => 2
  | .sclRel => 3
  | .sdaSample => 4
  | .bothRel => 5

/-- A micro-operation as the instruction that performs it. -/
def Uop.toInstr : Uop → Instr
  | .sdaLow => .sdaLow
  | .sdaRel => .sdaRel
  | .sclLow => .sclLow
  | .sclRel => .sclRel
  | .sdaSample => .sdaSample
  | .bothRel => .bothRel

/-- The micro-operation an instruction is, if it is one and not a command. -/
def Instr.toUop : Instr → Option Uop
  | .sdaLow => some .sdaLow
  | .sdaRel => some .sdaRel
  | .sclLow => some .sclLow
  | .sclRel => some .sclRel
  | .sdaSample => some .sdaSample
  | .bothRel => some .bothRel
  | .init => none
  | .start _ => none
  | .write _ => none
  | .read _ => none
  | .stop => none
  | .dinit => none
  | .cursor _ _ => none
  | .clear _ => none
  | .stream _ _ => none
  | .rchar _ => none
  | .rstr _ => none
  | .rdigit _ => none
  | .rframe => none

/-- Whether an instruction is one of the thirteen commands. -/
def Instr.isCommand (i : Instr) : Bool := i.toUop.isNone

/-- The decoder over both encodings. -/
def decode : Encoded → Except DecodeError Instr
  | .word w => decodeWord w
  | .code c => match uopOfCode c with
    | some u => .ok u.toInstr
    | none => .error .unusedCode

/-! ## The encoder -/

/-- A command word from its three fields (R50). -/
def pack (op : Byte) (x y : BitVec 12) : CmdWord := op ++ x ++ y

/-- The encoding of an instruction: the word the instruction's rule writes out (R85 to R89, R101 to R104, R112, R114, R119,
R120), or the micro-operation's code. -/
def encode : Instr → Encoded
  | .init => .word (pack 0x00 0 0)
  | .start value => .word (pack 0x01 0 (0#4 ++ value))
  | .write value => .word (pack 0x02 0 (0#4 ++ value))
  | .read flag => .word (pack 0x03 0 (0#11 ++ BitVec.ofBool flag))
  | .stop => .word (pack 0x04 0 0)
  | .dinit => .word (pack 0x10 0 0)
  | .cursor column page => .word (pack 0x11 (0#9 ++ page) (0#4 ++ column))
  | .clear count => .word (pack 0x12 0 count)
  | .stream ptr len => .word (pack 0x13 ptr len)
  | .rchar value => .word (pack 0x20 0 (0#4 ++ value))
  | .rstr ptr => .word (pack 0x21 ptr 0)
  | .rdigit value => .word (pack 0x22 0 (0#4 ++ value))
  | .rframe => .word (pack 0x23 0 0)
  | .sdaLow => .code 0
  | .sdaRel => .code 1
  | .sclLow => .code 2
  | .sclRel => .code 3
  | .sdaSample => .code 4
  | .bothRel => .code 5

/-! ## The table of spec/opcode_table.json -/

/-- A command's row of the opcode table: `W` decodes to the row when `W & mask = match`. -/
structure TableRow where
  mnemonic : String
  value : CmdWord
  mask : CmdWord
  deriving DecidableEq, Repr

/-- The thirteen command rows of spec/opcode_table.json. -/
def opcodeTable : List TableRow :=
  [⟨"INIT", 0x00000000, 0xFFFFFFFF⟩, ⟨"START", 0x01000000, 0xFFFFFF00⟩, ⟨"WRITE", 0x02000000, 0xFFFFFF00⟩,
   ⟨"READ", 0x03000000, 0xFFFFFFFE⟩, ⟨"STOP", 0x04000000, 0xFFFFFFFF⟩, ⟨"DINIT", 0x10000000, 0xFFFFFFFF⟩,
   ⟨"CURSOR", 0x11000000, 0xFFFF8F00⟩, ⟨"CLEAR", 0x12000000, 0xFFFFF000⟩, ⟨"STREAM", 0x13000000, 0xFF000000⟩,
   ⟨"RCHAR", 0x20000000, 0xFFFFFF00⟩, ⟨"RSTR", 0x21000000, 0xFF000FFF⟩, ⟨"RDIGIT", 0x22000000, 0xFFFFFF00⟩,
   ⟨"RFRAME", 0x23000000, 0xFFFFFFFF⟩]

/-- The row of the opcode table an instruction belongs to. -/
def Instr.mnemonic : Instr → String
  | .init => "INIT"
  | .start _ => "START"
  | .write _ => "WRITE"
  | .read _ => "READ"
  | .stop => "STOP"
  | .dinit => "DINIT"
  | .cursor _ _ => "CURSOR"
  | .clear _ => "CLEAR"
  | .stream _ _ => "STREAM"
  | .rchar _ => "RCHAR"
  | .rstr _ => "RSTR"
  | .rdigit _ => "RDIGIT"
  | .rframe => "RFRAME"
  | .sdaLow => "SDA_LOW"
  | .sdaRel => "SDA_REL"
  | .sclLow => "SCL_LOW"
  | .sclRel => "SCL_REL"
  | .sdaSample => "SDA_SAMPLE"
  | .bothRel => "BOTH_REL"

/-- The micro-operation in the bits of a row of fewer than 32 bits: its code is bits 2:0 (`mask` 0x7). -/
def uopOfTableBits (w : Nat) : Option Uop := uopOfCode (BitVec.ofNat 3 w)

/-- The instruction the decoder reads from bits `w` numbered as the opcode table numbers them: a command word for the rows
of 32 bits, a micro-operation's code for the rows of 3 (log 17). -/
def decodeTableWord (nbits w : Nat) : Option Instr :=
  if nbits ≤ 8 then (uopOfTableBits w).map Uop.toInstr else (decodeWord (BitVec.ofNat 32 w)).toOption

end Sys2Proof
end

