-- ==== Sys2Proof/Config.lean ====
section
/-! DEFINITION. The configuration record of 00_scope.md R5, the parameters the spec fixes, and the free values: constants
with no body, for what the spec leaves open. -/

namespace Sys2Proof

/-- The parameters of 00_scope.md R5 that no source gives a value (`OPEN`). The limits R5 sets on them hold by the shape of
the fields, so every record is an admissible one (log 3): an opcode whose low bits are zero is held by its high bits, a
font table of `5 * N5` bytes as `N5` glyphs of five, `FONT3` as the glyphs that follow the documented glyph of digit value
0, at least fifteen of them. The parameters as R5 names them are in Machine/Params.lean. -/
structure Params where
  /-- `ADDR_W`, the address byte START sends for a write transaction to the display. -/
  addrW : Byte
  /-- `ADDR7`, informative: no rule reads it. -/
  addr7 : BitVec 7
  /-- `INIT_SEQ`, the controller's configuration bytes in the order they are sent. -/
  initSeq : List Byte
  /-- `COL_LO_OP[7:4]`; bits 3:0 are zero. -/
  colLoHigh : BitVec 4
  /-- `COL_HI_OP[7:4]`; bits 3:0 are zero. -/
  colHiHigh : BitVec 4
  /-- `PAGE_OP[7:3]`; bits 2:0 are zero. -/
  pageHigh : BitVec 5
  /-- `PANEL_W`, in pixels; no rule of the block reads it. -/
  panelW : Nat
  /-- `PANEL_H`, in pixels; no rule of the block reads it. -/
  panelH : Nat
  /-- The glyphs of `FONT5`, character code 32 first. -/
  glyphs5 : List (Vector Byte 5)
  /-- The glyphs of `FONT3` for digit values 1 to 15. -/
  glyphs3 : Vector (Vector Byte 3) 15
  /-- The glyphs of `FONT3` from digit value 16 on. -/
  glyphs3More : List (Vector Byte 3)
  /-- Picks `BLANK_VAL`; see `Params.blankVal`. -/
  blankPick : Nat
  /-- Picks `COLON_VAL`; see `Params.colonVal`. -/
  colonPick : Nat
  /-- `TERM`, the value that ends a string. -/
  term : Byte
  /-- `RESET_DRV`, data line: the drive bit after reset, one of two values. -/
  resetDrvSda : Bool
  /-- `RESET_DRV`, clock line. -/
  resetDrvScl : Bool
  /-- `T_HIGH_MIN`; no rule of the model depends on it. -/
  tHighMin : Nat
  /-- `T_LOW_MIN`; no rule of the model depends on it. -/
  tLowMin : Nat
  /-- `T_STEP`; no rule of the model depends on it. -/
  tStep : Nat
  deriving DecidableEq, Repr, Inhabited

/-- The three orders in which the two releases of BOTH_REL may reach the lines (40_line_microops.md R77). -/
inductive ReleaseOrder where
  | dataFirst
  | clockFirst
  | together
  deriving DecidableEq, Repr, Inhabited

/-- What the observer may read where clock and data change in the same pair: anything of these (93_implementation_defined.md
U2). -/
inductive SimultaneousReading where
  | noEvent
  | startCond
  | stopCond
  | rise (bit : Bool)
  deriving DecidableEq, Repr, Inhabited

namespace Config

/-- `CMD_MODE`: "command stream follows" (00_scope.md R5). -/
def cmdMode : Byte := 0x00
/-- `DAT_MODE`: "data stream follows". -/
def datMode : Byte := 0x40
/-- `BASE5`. -/
def base5 : Nat := 32
/-- `BPG5`. -/
def bpg5 : Nat := 5
/-- `BASE3`. -/
def base3 : Nat := 0
/-- `BPG3`. -/
def bpg3 : Nat := 3
/-- `SRC_SIZE`. -/
def srcSize : Nat := 4096
/-- The number of entries of `FB` (10_state.md R18). -/
def fbSize : Nat := 8
/-- `FONT3[0..2]`, the documented glyph of digit value 0 (43_renderer.md R118). -/
def digit0 : Vector Byte 3 := #v[0x7F, 0x41, 0x7F]
/-- `F_BUS_MAX`, bits per second; no rule of the model depends on it. -/
def fBusMax : Nat := 400000

/-- The parameters of the machine that `State.reset` is the reset state of: any record (log 2). -/
opaque params : Params

/-- What `RXD` holds after reset, by the count of resets: 10_state.md R23 gives it no value (log 5). -/
opaque unwrittenRxd : Nat → Byte

/-- What an `FB` entry the host has not written since reset holds, by the count of resets and the entry (log 6). -/
opaque unwrittenFb : Nat → Nat → Byte

/-- What a `SRC` byte the host has not written since reset holds, by the count of resets and the address (log 7). -/
opaque unwrittenSrc : Nat → Nat → Byte

/-- What lies past the end of `FONT5`; no legal command reads it (20_memory.md R41, log 16). -/
opaque pastFont5 : Nat → Byte

/-- What lies past the end of `FONT3`; no legal command reads it (20_memory.md R41, log 16). -/
opaque pastFont3 : Nat → Byte

/-- The order in which the two releases of the `n`-th BOTH_REL reach the lines: unspecified (40_line_microops.md R77, log 9). -/
opaque releaseOrder : Nat → ReleaseOrder

/-- What the observer reads where both lines change in the same pair of the waveform, by the count of resets and the pair's
place in the waveform: unspecified (40_line_microops.md R80, 93_implementation_defined.md U2, log 18). -/
opaque simultaneous : Nat → Nat → SimultaneousReading

/-- Whether the environment pulls the data line LOW at the start of the run: a free input (log 10). -/
opaque envSdaLowAtStart : Bool

/-- Whether the environment pulls the clock line LOW at the start of the run: a free input (log 10). -/
opaque envSclLowAtStart : Bool

end Config
end Sys2Proof
end

