-- ==== Sys2Proof/Machine/Levels.lean ====
section
/-! DEFINITION. The level of an open-drain line (40_line_microops.md R76) and the pair of levels the waveform is made of
(R80). -/

namespace Sys2Proof.Machine

/-- The levels of the two lines at one moment; `true` is HIGH. -/
structure Levels where
  sda : Bool
  scl : Bool
  deriving DecidableEq, Repr

/-- The level of a line whose driver bit is `drv` and which the environment pulls LOW when `env`: the wired-AND of R76. -/
def lineLevel (drv env : Bool) : Bool := !(drv || env)

/-- The pair of levels for the two drive bits and the two inputs of the environment. -/
def Levels.of (drvSda drvScl envSdaLow envSclLow : Bool) : Levels :=
  { sda := lineLevel drvSda envSdaLow, scl := lineLevel drvScl envSclLow }

end Sys2Proof.Machine
end

