-- ==== Sys2Proof/Machine/State.lean ====
section
/-! DEFINITION. The machine's state: the block's registers and memories (10_state.md), the two inputs of the environment, what
the outside world will do next, and the model's own records (INVENTORY.md, '## State'). Plain data throughout. -/

namespace Sys2Proof.Machine

/-- A byte memory: the bytes the host has written since reset, as (address, byte) pairs with addresses strictly rising. An
address that is not listed holds no value of the spec's (10_state.md R23). -/
abbrev Memory := List Host.Cell

/-- One access of the host to a register (10_state.md R21). Each moves one whole register. -/
inductive HostAction where
  /-- The write of a 32-bit word to `CMD`, register number 0x0000: the issue of a command (R17). -/
  | issue (w : CmdWord)
  /-- The write of a byte to the 8-bit register of that number. -/
  | write8 (reg : Nat) (v : Byte)
  /-- The read of the register of that number. -/
  | read (reg : Nat)
  deriving DecidableEq, Repr

/-- Whose turn it is (10_state.md R26), or reset, which is no agent's step (70_reset_and_hazards.md R150). -/
inductive Turn where
  /-- The sequencer performs one micro-operation, if it has a plan. -/
  | sequencer
  /-- The host performs its next access, if it has one and it is not made to wait. -/
  | host
  /-- The environment sets its two inputs. -/
  | env (sdaLow sclLow : Bool)
  /-- Reset strikes. -/
  | reset
  deriving DecidableEq, Repr

/-- What a read of the host returned. -/
structure HostRead where
  reg : Nat
  value : BitVec 32
  deriving DecidableEq, Repr

/-- Why the machine stops with a fault. The block itself has no fault (60_exceptions.md R130). -/
inductive Fault where
  /-- Raised by a sequencer turn in a state whose `UPC` is not below the length of its non-empty `PLAN`, which 10_state.md R15
  excludes: there is no micro-operation to perform. Safe: no step reaches such a state from one that keeps R15 (log 13). -/
  | upcOutsidePlan
  deriving DecidableEq, Repr

/-- Why the machine gives a step no meaning. -/
inductive Refusal where
  /-- An instruction with no meaning in this model. No arm of `exec` raises it. Safe. -/
  | notModelled (mnemonic : String)
  /-- Raised by a host turn: the register number is not in the map, so "the block gives an access to it no meaning and a
  model refuses it" (10_state.md R21). Safe (log 14). -/
  | unmappedRegister (reg : Nat)
  /-- Raised by a host turn that would write a byte to `CMD`: "there is no access to part of a register" (10_state.md R21).
  Safe (log 14). -/
  | partialAccess (reg : Nat)
  deriving DecidableEq, Repr

/-- The state. -/
structure State where
  /-- The configuration record of 00_scope.md R5; no step changes it (log 2). -/
  cfg : Params
  /-- `DRV_SDA`: the block drives the data line LOW (10_state.md R10). -/
  drvSda : Bool
  /-- `DRV_SCL`: the block drives the clock line LOW (10_state.md R10). -/
  drvScl : Bool
  /-- `RXD` (10_state.md R13). -/
  rxd : Byte
  /-- `PLAN` (10_state.md R14). -/
  plan : List Uop
  /-- `UPC` (10_state.md R15). -/
  upc : Nat
  /-- `ILL` (10_state.md R25). -/
  ill : Bool
  /-- `FB[0..7]` (10_state.md R18). -/
  fb : Memory
  /-- `SRC[0..4095]` (10_state.md R19). -/
  src : Memory
  /-- `ENV_SDA_LOW` (40_line_microops.md R76): an input, not a register. -/
  envSdaLow : Bool
  /-- `ENV_SCL_LOW` (40_line_microops.md R76): an input, not a register. -/
  envSclLow : Bool
  /-- The host's accesses still to come, in order (10_state.md R28). -/
  host : List HostAction
  /-- The turns to come; when it is empty the sequencer moves while it has a plan and the host moves otherwise (log 1). -/
  sched : List Turn
  /-- What the host has read, oldest first (log 24). -/
  hostLog : List HostRead
  /-- The trace (40_line_microops.md R79), oldest first (log 12). -/
  trace : List Uop
  /-- The waveform (40_line_microops.md R80), oldest first (log 12). -/
  wave : List Levels
  /-- How many resets came after the first: picks the free values of unwritten locations (log 5). -/
  epoch : Nat
  /-- How many BOTH_REL steps have been performed: picks the free release orders (log 9). -/
  draws : Nat
  deriving DecidableEq, Repr

/-- The machine right after reset (10_state.md R23, 70_reset_and_hazards.md R150). The drive bits are the open parameter
`RESET_DRV`; `RXD`, `FB` and `SRC` hold nothing the spec gives, so free values (log 5, 6, 7). -/
def State.reset : State where
  cfg := Config.params
  drvSda := Config.params.resetDrvSda
  drvScl := Config.params.resetDrvScl
  rxd := Config.unwrittenRxd 0
  plan := []
  upc := 0
  ill := false
  fb := []
  src := []
  envSdaLow := Config.envSdaLowAtStart
  envSclLow := Config.envSclLowAtStart
  host := []
  sched := []
  hostLog := []
  trace := []
  wave := [Levels.of Config.params.resetDrvSda Config.params.resetDrvScl Config.envSdaLowAtStart Config.envSclLowAtStart]
  epoch := 0
  draws := 0

end Sys2Proof.Machine
end

