-- ==== Sys2Proof/Machine/Flags.lean ====
section
/-! DEFINITION. The block's two flags and the register that shows them (10_state.md R16, R25). There is no condition code. -/

namespace Sys2Proof.Machine

/-- `BUSY = 1` exactly when `PLAN` is not empty (10_state.md R25). -/
def State.busy (s : State) : Bool := !s.plan.isEmpty

/-- `illegal(W)`: `ILL <- 1` and nothing else (30_encoding.md R58). -/
def State.setIll (s : State) : State := { s with ill := true }

/-- `STAT`: bit 0 `BUSY`, bit 1 `ILL`, bits 7:2 zero (10_state.md R16). -/
def State.stat (s : State) : Byte := 0#6 ++ BitVec.ofBool s.ill ++ BitVec.ofBool s.busy

end Sys2Proof.Machine
end

