-- ==== Sys2Proof/Machine/Ops.lean ====
section
/-! DEFINITION. The operations every meaning is written over: byte memories, line levels and the two records of them, the
acceptance of a command, the sequencer's position, turns, and reset. There is no operation for taking an exception or for
returning from one: the block has neither (60_exceptions.md R130, R135, R136). -/

namespace Sys2Proof.Machine

/-- The outcome of a step or of a meaning. -/
abbrev Result := Host.Outcome State Fault Refusal

/-! ## Byte memories -/

/-- The addresses strictly rise. -/
def Memory.sorted : Memory → Bool
  | [] => true
  | [_] => true
  | c :: d :: rest => decide (c.1 < d.1) && Memory.sorted (d :: rest)

/-- The canonical form of a memory of `size` bytes: addresses strictly rising, each below `size`. An unlisted address reads
as no value, so no entry can equal what an unlisted address reads as. -/
def Memory.wf (size : Nat) (m : Memory) : Bool := Memory.sorted m && m.all fun c => decide (c.1 < size)

/-- The byte listed at an address, if one is. -/
def Memory.read (m : Memory) (a : Nat) : Option Byte :=
  match m with
  | [] => none
  | c :: rest => if c.1 = a then some c.2 else Memory.read rest a

/-- `m` with byte `v` at address `a`. -/
def Memory.write (m : Memory) (a : Nat) (v : Byte) : Memory :=
  match m with
  | [] => [(a, v)]
  | c :: rest =>
    if a < c.1 then (a, v) :: c :: rest
    else if a = c.1 then (a, v) :: rest
    else c :: Memory.write rest a v

/-- `MemRead(FB, i, 1)`: what the host wrote since reset, or a free value (10_state.md R18, R23; log 6). -/
def State.fbEntry (s : State) (i : Nat) : Byte := (Memory.read s.fb i).getD (Config.unwrittenFb s.epoch i)

/-- `MemRead(SRC, p, 1)`: what the host wrote since reset, or a free value (10_state.md R19, R23; log 7). -/
def State.srcByte (s : State) (p : Nat) : Byte := (Memory.read s.src p).getD (Config.unwrittenSrc s.epoch p)

/-! ## The lines -/

/-- Shift a bit into a byte at bit 0; the old bit 7 is dropped (40_line_microops.md R75). -/
def shiftIn (v : Byte) (b : Bool) : Byte := v.extractLsb' 0 7 ++ BitVec.ofBool b

/-- `level(SDA)` (40_line_microops.md R76). -/
def State.levelSda (s : State) : Bool := lineLevel s.drvSda s.envSdaLow

/-- `level(SCL)` (40_line_microops.md R76). The block never reads it (R83); the observer does. -/
def State.levelScl (s : State) : Bool := lineLevel s.drvScl s.envSclLow

/-- The levels of both lines now. -/
def State.levels (s : State) : Levels := Levels.of s.drvSda s.drvScl s.envSdaLow s.envSclLow

/-- Record that micro-operation `u` has led to this state: it joins the trace, and the levels it leaves join the waveform
after the pairs `between` that it passed through (40_line_microops.md R79, R80). -/
def State.record (s : State) (u : Uop) (between : List Levels) : State :=
  { s with trace := s.trace ++ [u], wave := s.wave ++ between ++ [s.levels] }

/-! ## Accepting a command -/

/-- The acceptance of a command word that decodes (10_state.md R17): a legal one sets `PLAN` to its plan and `UPC` to 0; one
whose operand condition fails is dropped, `ILL <- 1` (30_encoding.md R58; log 8). -/
def accept (legal : Bool) (plan : List Uop) (s : State) : Result :=
  .next (if legal then { s with plan := plan, upc := 0 } else s.setIll)

/-! ## The sequencer's position (10_state.md R15) -/

/-- What the sequencer finds at `UPC`. -/
inductive Fetched where
  /-- There is no plan. -/
  | idle
  /-- The next micro-operation. -/
  | uop (u : Uop)
  /-- There is a plan and `UPC` is outside it. -/
  | outside
  deriving DecidableEq, Repr

/-- `u = PLAN[UPC]`. -/
def State.fetch (s : State) : Fetched :=
  if s.busy then
    match s.plan[s.upc]? with
    | some u => .uop u
    | none => .outside
  else .idle

/-- `UPC <- UPC + 1`, and `PLAN <- []`, `UPC <- 0` if that makes `UPC` the length of the plan. -/
def State.advance (s : State) : State :=
  if s.upc + 1 = s.plan.length then { s with plan := [], upc := 0 } else { s with upc := s.upc + 1 }

/-! ## Turns -/

/-- Whose turn it is: the schedule's first entry; without one, the sequencer's while there is a plan and the host's otherwise
(log 1). -/
def State.nextTurn (s : State) : Turn :=
  match s.sched with
  | t :: _ => t
  | [] => if s.busy then .sequencer else .host

/-- The turn that is taken now leaves the schedule. -/
def State.popTurn (s : State) : State := { s with sched := s.sched.tail }

/-- The environment sets its inputs, and the levels that follow join the waveform (40_line_microops.md R78, R80). -/
def State.setEnv (s : State) (sdaLow sclLow : Bool) : State :=
  { s with
    envSdaLow := sdaLow
    envSclLow := sclLow
    wave := s.wave ++ [Levels.of s.drvSda s.drvScl sdaLow sclLow] }

/-- Reset of the block at any moment (70_reset_and_hazards.md R150): the state of 10_state.md R23. The environment's inputs
and the host's accesses to come are not the block's; a new run begins, so the trace and the waveform start again (log 20). -/
def State.resetBlock (s : State) : State :=
  { s with
    drvSda := s.cfg.resetDrvSda
    drvScl := s.cfg.resetDrvScl
    rxd := Config.unwrittenRxd (s.epoch + 1)
    plan := []
    upc := 0
    ill := false
    fb := []
    src := []
    trace := []
    wave := [Levels.of s.cfg.resetDrvSda s.cfg.resetDrvScl s.envSdaLow s.envSclLow]
    epoch := s.epoch + 1 }

end Sys2Proof.Machine
end

