-- ==== Sys2Proof/Machine/Engine.lean ====
section
/-! DEFINITION. The five commands of the I2C Engine: their plans, which are their normative meaning (00_scope.md R8,
41_engine.md R85 to R89), and their acceptance. Every operand value is legal (30_encoding.md R58). -/

namespace Sys2Proof.Machine

/-- `uops(INIT)` (R85). -/
def uopsInit : List Uop := [.bothRel]

/-- The micro-operations that send one bit: data LOW, released again if the bit is 1, then a clock pulse (R87). -/
def uopsBit (b : Bool) : List Uop := [.sdaLow] ++ (if b then [.sdaRel] else []) ++ [.sclRel, .sclLow]

/-- The ninth pulse of a written byte: the data line is released for the receiver's acknowledgment, which nothing reads
(R87). -/
def uopsAckPulse : List Uop := [.sdaRel, .sclRel, .sclLow]

/-- `uops(WRITE value)` (R87): `value[7-i]` for `i = 0 .. 7`, then the ninth pulse. -/
def uopsWrite (value : Byte) : List Uop :=
  ([0, 1, 2, 3, 4, 5, 6, 7].flatMap fun i => uopsBit (value.getLsbD (7 - i))) ++ uopsAckPulse

/-- `uops(START value)` (R86). -/
def uopsStart (value : Byte) : List Uop := [.sdaLow, .sclLow] ++ uopsWrite value

/-- One sampled pulse of a read byte (R88). -/
def uopsSample : List Uop := [.sclRel, .sdaSample, .sclLow]

/-- `uops(READ flag)` (R88). -/
def uopsRead (flag : Bool) : List Uop :=
  [.sdaRel] ++ (List.replicate 8 uopsSample).flatten ++ (if flag then [.sdaLow] else []) ++ [.sclRel, .sclLow] ++ [.sdaRel]

/-- `uops(STOP)` (R89). -/
def uopsStop : List Uop := [.sdaLow, .sclRel, .sdaRel]

/-- `wr` of each byte in order: the plan of WRITE after WRITE (00_scope.md R8). -/
def uopsWrites (bs : List Byte) : List Uop := bs.flatMap uopsWrite

/-- `txn(m, bs)` (00_scope.md R8, 42_display.md R100): opens a transaction, selects mode `m`, writes `bs`, closes it. -/
def txn (p : Params) (m : Byte) (bs : List Byte) : List Uop :=
  uopsStart p.addrW ++ uopsWrite m ++ uopsWrites bs ++ uopsStop

/-- INIT (R85). -/
def execInit (s : State) : Result := accept true uopsInit s

/-- START (R86). -/
def execStart (value : Byte) (s : State) : Result := accept true (uopsStart value) s

/-- WRITE (R87). -/
def execWrite (value : Byte) (s : State) : Result := accept true (uopsWrite value) s

/-- READ (R88). -/
def execRead (flag : Bool) (s : State) : Result := accept true (uopsRead flag) s

/-- STOP (R89). -/
def execStop (s : State) : Result := accept true uopsStop s

end Sys2Proof.Machine
end

