-- ==== Sys2Proof/Machine/Params.lean ====
section
/-! DEFINITION. The parameters of 00_scope.md R5 under the names R5 gives them, the two font tables as byte spaces
(20_memory.md R31, R32), and the operand conditions of 30_encoding.md R58 that read no state. -/

namespace Sys2Proof
namespace Params

/-- `COL_LO_OP`: bits 3:0 zero. -/
def colLoOp (p : Params) : Byte := p.colLoHigh ++ 0#4

/-- `COL_HI_OP`: bits 3:0 zero. -/
def colHiOp (p : Params) : Byte := p.colHiHigh ++ 0#4

/-- `PAGE_OP`: bits 2:0 zero. -/
def pageOp (p : Params) : Byte := p.pageHigh ++ 0#3

/-- `N5`, the number of glyphs in `FONT5`. -/
def n5 (p : Params) : Nat := p.glyphs5.length

/-- `N3`, the number of glyphs in `FONT3`, at least 16. -/
def n3 (p : Params) : Nat := p.glyphs3More.length + 16

/-- `FONT5` as its byte space of `5 * N5` addresses (20_memory.md R31). -/
def font5 (p : Params) : List Byte := p.glyphs5.flatMap Vector.toList

/-- `FONT3` as its byte space of `3 * N3` addresses; the glyph of digit value 0 first (20_memory.md R32). -/
def font3 (p : Params) : List Byte :=
  (Config.digit0 :: (p.glyphs3.toList ++ p.glyphs3More)).flatMap Vector.toList

/-- `MemRead(FONT5, a, 1)`. Past the table nothing is stated and the value is free; a legal command never reads there
(20_memory.md R41). -/
def readFont5 (p : Params) (a : Nat) : Byte := (p.font5[a]?).getD (Config.pastFont5 a)

/-- `MemRead(FONT3, a, 1)`. -/
def readFont3 (p : Params) (a : Nat) : Byte := (p.font3[a]?).getD (Config.pastFont3 a)

/-- `BLANK_VAL`: some value below `N3` that fits 8 bits; the block treats it as any other value (43_renderer.md R123). -/
def blankVal (p : Params) : Byte := BitVec.ofNat 8 (p.blankPick % min p.n3 256)

/-- `COLON_VAL`. -/
def colonVal (p : Params) : Byte := BitVec.ofNat 8 (p.colonPick % min p.n3 256)

/-- RCHAR's operand condition: `value >= 32` and `value - 32 < N5` (30_encoding.md R58). -/
def charOk (p : Params) (c : Byte) : Bool := decide (Config.base5 ≤ c.toNat) && decide (c.toNat - Config.base5 < p.n5)

/-- RDIGIT's operand condition: `value < N3` (30_encoding.md R58). -/
def digitOk (p : Params) (v : Byte) : Bool := decide (v.toNat < p.n3)

end Params

/-- STREAM's operand condition: `ptr + len <= SRC_SIZE`, in unbounded naturals (30_encoding.md R58, 20_memory.md R41). -/
def streamFits (ptr len : BitVec 12) : Bool := decide (ptr.toNat + len.toNat ≤ Config.srcSize)

end Sys2Proof
end

