-- ==== Sys2Proof/Machine/Operands.lean ====
section
/-! DEFINITION. How operands become bytes and addresses: CURSOR's three bytes (30_encoding.md R54), table offsets (R55), bit
pairs (R56), and the byte ranges and strings of `SRC` (20_memory.md R33, 43_renderer.md R113). -/

namespace Sys2Proof.Machine

/-- `b_lo = COL_LO_OP | column[3:0]`, sent first. -/
def cursorLo (p : Params) (column : Byte) : Byte := p.colLoOp ||| (column.extractLsb' 0 4).setWidth 8

/-- `b_hi = COL_HI_OP | column[7:4]`, sent second. -/
def cursorHi (p : Params) (column : Byte) : Byte := p.colHiOp ||| (column.extractLsb' 4 4).setWidth 8

/-- `b_page = PAGE_OP | page`, sent third. -/
def cursorPage (p : Params) (page : BitVec 3) : Byte := p.pageOp ||| page.setWidth 8

/-- `off5(c) = (c - BASE5) * BPG5`, in unbounded naturals; meant for `c >= 32` only. -/
def off5 (c : Byte) : Nat := (c.toNat - Config.base5) * Config.bpg5

/-- `off3(v) = (v - BASE3) * BPG3`, in unbounded naturals. -/
def off3 (v : Byte) : Nat := (v.toNat - Config.base3) * Config.bpg3

/-- `pair(s, k) = (s >> (2*k))[1:0]`, for `k = 0..3`. -/
def pair (s : Byte) (k : Nat) : BitVec 2 := (s >>> (2 * k)).setWidth 2

/-- The bytes `SRC[ptr] .. SRC[ptr + len - 1]` in increasing address order. -/
def State.srcRange (s : State) (ptr len : Nat) : List Byte := (List.range len).map fun i => s.srcByte (ptr + i)

/-- The characters of `SRC` from address `a` up to the first byte equal to `TERM`, if there is one among the next `room`
bytes. The terminator is not part of the list. -/
def State.scan (s : State) (room a : Nat) : Option (List Byte) :=
  match room with
  | 0 => none
  | room + 1 => if s.srcByte a = s.cfg.term then some [] else (s.scan room (a + 1)).map (s.srcByte a :: ·)

/-- `string(ptr)`, if a terminator stands at or after `ptr` inside `SRC`. -/
def State.stringAt (s : State) (ptr : Nat) : Option (List Byte) := s.scan (Config.srcSize - ptr) ptr

/-- The eight entries of `FB` in index order. -/
def State.fbEntries (s : State) : List Byte := (List.range Config.fbSize).map s.fbEntry

end Sys2Proof.Machine
end

