-- ==== Sys2Proof/Machine/Display.lean ====
section
/-! DEFINITION. The four commands of the Display Driver, each a whole number of transactions (42_display.md R101 to R104). -/

namespace Sys2Proof.Machine

/-- `uops(DINIT) = txn(0x00, INIT_SEQ)` (R101). -/
def uopsDinit (p : Params) : List Uop := txn p Config.cmdMode p.initSeq

/-- `uops(CURSOR column, page) = txn(0x00, [b_lo, b_hi, b_page])` (R102). -/
def uopsCursor (p : Params) (column : Byte) (page : BitVec 3) : List Uop :=
  txn p Config.cmdMode [cursorLo p column, cursorHi p column, cursorPage p page]

/-- `uops(CLEAR count) = uops(CURSOR 0, 0) ++ txn(0x40, count * [0x00])` (R103). -/
def uopsClear (p : Params) (count : BitVec 12) : List Uop :=
  uopsCursor p 0 0 ++ txn p Config.datMode (List.replicate count.toNat 0x00)

/-- `uops(STREAM ptr, len) = txn(0x40, bs)` (R104). -/
def uopsStream (ptr len : BitVec 12) (s : State) : List Uop :=
  txn s.cfg Config.datMode (s.srcRange ptr.toNat len.toNat)

/-- DINIT (R101). -/
def execDinit (s : State) : Result := accept true (uopsDinit s.cfg) s

/-- CURSOR (R102). -/
def execCursor (column : Byte) (page : BitVec 3) (s : State) : Result := accept true (uopsCursor s.cfg column page) s

/-- CLEAR (R103). -/
def execClear (count : BitVec 12) (s : State) : Result := accept true (uopsClear s.cfg count) s

/-- STREAM (R104); illegal where the range passes the end of `SRC`. -/
def execStream (ptr len : BitVec 12) (s : State) : Result := accept (streamFits ptr len) (uopsStream ptr len s) s

end Sys2Proof.Machine
end

