-- ==== Sys2Proof/Machine/Lines.lean ====
section
/-! DEFINITION. The six line micro-operations, `do(u)` (40_line_microops.md R71 to R75, R77). Each is total; the sequencer moves
`UPC` around it (10_state.md R15). -/

namespace Sys2Proof.Machine

/-- SDA_LOW (R71): `DRV_SDA <- 1`. -/
def execSdaLow (s : State) : Result := .next (State.record { s with drvSda := true } .sdaLow [])

/-- SDA_REL (R72): `DRV_SDA <- 0`. -/
def execSdaRel (s : State) : Result := .next (State.record { s with drvSda := false } .sdaRel [])

/-- SCL_LOW (R73): `DRV_SCL <- 1`. -/
def execSclLow (s : State) : Result := .next (State.record { s with drvScl := true } .sclLow [])

/-- SCL_REL (R74): `DRV_SCL <- 0`. -/
def execSclRel (s : State) : Result := .next (State.record { s with drvScl := false } .sclRel [])

/-- SDA_SAMPLE (R75): `RXD <- (RXD[6:0], level(SDA))`, the new bit at bit 0. -/
def execSdaSample (s : State) : Result :=
  .next (State.record { s with rxd := shiftIn s.rxd s.levelSda } .sdaSample [])

/-- The pairs of levels the lines pass through while both are released from LOW, for each order of the two releases
(R77). -/
def releasePath (s : State) : ReleaseOrder → List Levels
  | .dataFirst => [Levels.of false true s.envSdaLow s.envSclLow]
  | .clockFirst => [Levels.of true false s.envSdaLow s.envSclLow]
  | .together => []

/-- BOTH_REL (R77): both drive bits to 0. Where both lines were driven, the order in which the releases reach the lines is a
free value (log 9); otherwise the three orders are the same. -/
def execBothRel (s : State) : Result :=
  .next (State.record { s with drvSda := false, drvScl := false, draws := s.draws + 1 } .bothRel
    (if s.drvSda && s.drvScl then releasePath s (Config.releaseOrder s.draws) else []))

end Sys2Proof.Machine
end

