-- ==== Sys2Proof/Machine/Renderer.lean ====
section
/-! DEFINITION. The Glyph Renderer (43_renderer.md): glyphs, the stretch function, and the four commands. -/

namespace Sys2Proof.Machine

/-- `glyph5(c)` (R111): the spacer, then the five bytes of the glyph. -/
def glyph5 (p : Params) (c : Byte) : List Byte :=
  0x00 :: [0, 1, 2, 3, 4].map fun j => p.readFont5 (off5 c + j)

/-- `stretch(p)` (R115): four copies of `p[1]`, then four copies of `p[0]`. -/
def stretch (p : BitVec 2) : Byte :=
  BitVec.replicate 4 (p.extractLsb' 1 1) ++ BitVec.replicate 4 (p.extractLsb' 0 1)

/-- `quad(s)` (R116): the four bit pairs stretched, lowest pair first. -/
def quad (s : Byte) : List Byte := [0, 1, 2, 3].map fun k => stretch (pair s k)

/-- `digit64(v)` (R117): eight zero bytes, then the quads of the three glyph bytes 4, 6 and 4 times. -/
def digit64 (p : Params) (v : Byte) : List Byte :=
  List.replicate 8 0x00
    ++ (List.replicate 4 (quad (p.readFont3 (off3 v + 0)))).flatten
    ++ (List.replicate 6 (quad (p.readFont3 (off3 v + 1)))).flatten
    ++ (List.replicate 4 (quad (p.readFont3 (off3 v + 2)))).flatten

/-- `uops(RCHAR value)` (R112). -/
def uopsRchar (p : Params) (value : Byte) : List Uop := uopsWrites (glyph5 p value)

/-- `uops(RSTR ptr)` (R114). -/
def uopsRstr (ptr : BitVec 12) (s : State) : List Uop :=
  txn s.cfg Config.datMode (((s.stringAt ptr.toNat).getD []).flatMap (glyph5 s.cfg))

/-- RSTR's operand condition (30_encoding.md R58): a terminator inside `SRC`, and every character before it legal for
RCHAR. -/
def stringOk (ptr : BitVec 12) (s : State) : Bool :=
  match s.stringAt ptr.toNat with
  | some cs => cs.all s.cfg.charOk
  | none => false

/-- `uops(RDIGIT value)` (R119). -/
def uopsRdigit (p : Params) (value : Byte) : List Uop := uopsWrites (digit64 p value)

/-- `uops(RFRAME)` (R120). -/
def uopsRframe (s : State) : List Uop := txn s.cfg Config.datMode (s.fbEntries.flatMap (digit64 s.cfg))

/-- RFRAME's operand condition (30_encoding.md R58): every `FB[i] < N3`. -/
def frameOk (s : State) : Bool := s.fbEntries.all s.cfg.digitOk

/-- RCHAR (R112). -/
def execRchar (value : Byte) (s : State) : Result := accept (s.cfg.charOk value) (uopsRchar s.cfg value) s

/-- RSTR (R114). -/
def execRstr (ptr : BitVec 12) (s : State) : Result := accept (stringOk ptr s) (uopsRstr ptr s) s

/-- RDIGIT (R119). -/
def execRdigit (value : Byte) (s : State) : Result := accept (s.cfg.digitOk value) (uopsRdigit s.cfg value) s

/-- RFRAME (R120). -/
def execRframe (s : State) : Result := accept (frameOk s) (uopsRframe s) s

end Sys2Proof.Machine
end

