-- ==== Sys2Proof/Machine/Dispatch.lean ====
section
/-! DEFINITION. One arm per instruction, each a call of its meaning. -/

namespace Sys2Proof.Machine

def exec (i : Instr) (s : State) : Host.Outcome State Fault Refusal :=
  match i with
  -- the I2C Engine
  | .init => Sys2Proof.Machine.execInit s
  | .start value => Sys2Proof.Machine.execStart value s
  | .write value => Sys2Proof.Machine.execWrite value s
  | .read flag => Sys2Proof.Machine.execRead flag s
  | .stop => Sys2Proof.Machine.execStop s
  -- the Display Driver
  | .dinit => Sys2Proof.Machine.execDinit s
  | .cursor column page => Sys2Proof.Machine.execCursor column page s
  | .clear count => Sys2Proof.Machine.execClear count s
  | .stream ptr len => Sys2Proof.Machine.execStream ptr len s
  -- the Glyph Renderer
  | .rchar value => Sys2Proof.Machine.execRchar value s
  | .rstr ptr => Sys2Proof.Machine.execRstr ptr s
  | .rdigit value => Sys2Proof.Machine.execRdigit value s
  | .rframe => Sys2Proof.Machine.execRframe s
  -- the line micro-operations
  | .sdaLow => Sys2Proof.Machine.execSdaLow s
  | .sdaRel => Sys2Proof.Machine.execSdaRel s
  | .sclLow => Sys2Proof.Machine.execSclLow s
  | .sclRel => Sys2Proof.Machine.execSclRel s
  | .sdaSample => Sys2Proof.Machine.execSdaSample s
  | .bothRel => Sys2Proof.Machine.execBothRel s

end Sys2Proof.Machine
end

