-- ==== Sys2Proof/Machine/HostPort.lean ====
section
/-! DEFINITION. The host's register map (10_state.md R21): what each number names, what a read returns, what a write does. -/

namespace Sys2Proof.Machine

/-- The registers of the map. -/
inductive HostReg where
  | cmd
  | stat
  | rxd
  | dir
  | out
  | pin
  | fb (i : Nat)
  | src (p : Nat)
  deriving DecidableEq, Repr

/-- The register a number names; every other number is unmapped. -/
def regOf (n : Nat) : Option HostReg :=
  if n = 0x0000 then some .cmd
  else if n = 0x0001 then some .stat
  else if n = 0x0002 then some .rxd
  else if n = 0x0003 then some .dir
  else if n = 0x0004 then some .out
  else if n = 0x0005 then some .pin
  else if 0x0010 ≤ n ∧ n ≤ 0x0017 then some (.fb (n - 0x0010))
  else if 0x1000 ≤ n ∧ n ≤ 0x1FFF then some (.src (n - 0x1000))
  else none

/-- `DIR`: bit 0 `DRV_SDA`, bit 1 `DRV_SCL`, bits 7:2 zero. -/
def State.dir (s : State) : Byte := 0#6 ++ BitVec.ofBool s.drvScl ++ BitVec.ofBool s.drvSda

/-- `OUT`: the two hard-wired zeros `OUT_SDA`, `OUT_SCL`, so always 0x00 (10_state.md R11). -/
def State.out (_ : State) : Byte := 0

/-- `PIN`: bit 0 `level(SDA)`, bits 7:1 zero. -/
def State.pin (s : State) : Byte := 0#7 ++ BitVec.ofBool s.levelSda

/-- What a read of a register returns, zero-extended to the width of the widest. A read of `CMD` returns 0 (10_state.md R17). -/
def State.readReg (s : State) : HostReg → BitVec 32
  | .cmd => 0
  | .stat => s.stat.setWidth 32
  | .rxd => s.rxd.setWidth 32
  | .dir => s.dir.setWidth 32
  | .out => s.out.setWidth 32
  | .pin => s.pin.setWidth 32
  | .fb i => (s.fbEntry i).setWidth 32
  | .src p => (s.srcByte p).setWidth 32

/-- Whether a byte write to the register waits while `BUSY = 1` (10_state.md R27). -/
def HostReg.waits : HostReg → Bool
  | .fb _ => true
  | .src _ => true
  | .cmd => true
  | .stat => false
  | .rxd => false
  | .dir => false
  | .out => false
  | .pin => false

/-- What a byte write to a register does when it completes: `FB` and `SRC` take it, the read-only registers ignore it. -/
def State.writeReg (s : State) (r : HostReg) (v : Byte) : State :=
  match r with
  | .fb i => { s with fb := Memory.write s.fb i v }
  | .src p => { s with src := Memory.write s.src p v }
  | .cmd => s
  | .stat => s
  | .rxd => s
  | .dir => s
  | .out => s
  | .pin => s

end Sys2Proof.Machine
end

