-- ==== Sys2Proof/Machine/Agents.lean ====
section
/-! DEFINITION. One turn of the sequencer (10_state.md R15) and one turn of the host (R17, R21, R27). -/

namespace Sys2Proof.Machine

/-- `UPC` moves once the micro-operation has been performed. -/
def thenAdvance (r : Result) : Result :=
  match r with
  | .next t => .next t.advance
  | .fault f => .fault f
  | .refused f => .refused f

/-- The sequencer reads `u = PLAN[UPC]`, performs `do(u)` and moves `UPC`. With no plan it does nothing. -/
def sequencerTurn (s : State) : Result :=
  match s.fetch with
  | .idle => .next s
  | .uop u => thenAdvance (exec u.toInstr s)
  | .outside => .fault .upcOutsidePlan

/-- The completion of the issue of a word (10_state.md R17): what it decodes to is accepted; a word that decodes to nothing is
illegal (30_encoding.md R58). -/
def issueWord (w : CmdWord) (s : State) : Result :=
  match decodeWord w with
  | .ok i => exec i s
  | .error _ => .next s.setIll

/-- The host performs its next access. A read completes at once; a write that has to wait has simply not happened yet, and
the host makes no other progress (10_state.md R27). -/
def hostTurn (s : State) : Result :=
  match s.host with
  | [] => .next s
  | .issue w :: rest => if s.busy then .next s else issueWord w { s with host := rest }
  | .write8 n v :: rest =>
    match regOf n with
    | none => .refused (.unmappedRegister n)
    | some .cmd => .refused (.partialAccess n)
    | some r => .next (if r.waits && s.busy then s else State.writeReg { s with host := rest } r v)
  | .read n :: rest =>
    match regOf n with
    | none => .refused (.unmappedRegister n)
    | some r => .next { s with host := rest, hostLog := s.hostLog ++ [{ reg := n, value := s.readReg r }] }

end Sys2Proof.Machine
end

