-- ==== Sys2Proof/Machine/Step.lean ====
section
/-! DEFINITION. One step of the machine: one turn of the sequencer, of the host or of the environment, or a reset. -/

namespace Sys2Proof.Machine

/-- One step. -/
def step (s : State) : Host.Outcome State Fault Refusal :=
  match s.nextTurn with
  | .sequencer => sequencerTurn s.popTurn
  | .host => hostTurn s.popTurn
  | .env sdaLow sclLow => .next (s.popTurn.setEnv sdaLow sclLow)
  | .reset => .next s.popTurn.resetBlock

/-- `s` with a table row's instruction where the next step takes its instruction from. A command word is the host's next
access, issued on an idle sequencer in the turn that comes next; a micro-operation is the whole plan, and the next turn is
the sequencer's (log 17). Codes 6 and 7 never occur in a plan and change nothing. -/
def State.withFetchWord (s : State) (nbits w : Nat) : State :=
  if nbits ≤ 8 then
    match uopOfTableBits w with
    | some u => { s with plan := [u], upc := 0, sched := .sequencer :: s.sched }
    | none => s
  else
    { s with plan := [], upc := 0, host := .issue (BitVec.ofNat 32 w) :: s.host, sched := .host :: s.sched }

end Sys2Proof.Machine
end

