-- ==== Sys2Proof/Machine/Assembler.lean ====
section
/-! DEFINITION. The assembler syntax of 30_encoding.md R64 and the pseudo-instructions of R65. A line is read as characters;
what R64 leaves open about spaces is in log 23. -/

namespace Sys2Proof.Asm

/-- A line as its mnemonic and its operands. -/
structure Line where
  mnemonic : List Char
  operands : List Nat
  deriving DecidableEq, Repr

/-! ## Numbers: decimal, or hexadecimal after 0x -/

/-- The value of a digit in base 16. -/
def digitVal (c : Char) : Option Nat :=
  if '0' ≤ c ∧ c ≤ '9' then some (c.toNat - '0'.toNat)
  else if 'a' ≤ c ∧ c ≤ 'f' then some (c.toNat - 'a'.toNat + 10)
  else if 'A' ≤ c ∧ c ≤ 'F' then some (c.toNat - 'A'.toNat + 10)
  else none

/-- The value of a list of digits in a base, going on from `acc`. -/
def digits (base acc : Nat) : List Char → Option Nat
  | [] => some acc
  | c :: cs =>
    match digitVal c with
    | some d => if d < base then digits base (acc * base + d) cs else none
    | none => none

/-- A number of the syntax. -/
def number : List Char → Option Nat
  | '0' :: 'x' :: c :: cs => digits 16 0 (c :: cs)
  | c :: cs => digits 10 0 (c :: cs)
  | [] => none

/-! ## Lines -/

/-- A line without its comment, which a semicolon starts. -/
def dropComment (l : List Char) : List Char := l.takeWhile (· ≠ ';')

/-- A list of characters without the spaces around it. -/
def trim (l : List Char) : List Char := ((l.dropWhile (· = ' ')).reverse.dropWhile (· = ' ')).reverse

/-- The parts of a list of characters between its commas. -/
def splitCommas : List Char → List (List Char)
  | [] => [[]]
  | c :: cs =>
    match splitCommas cs with
    | [] => [[c]]
    | first :: rest => if c = ',' then [] :: first :: rest else (c :: first) :: rest

/-- Every element's number, if every one is a number. -/
def numbers : List (List Char) → Option (List Nat)
  | [] => some []
  | l :: rest =>
    match number (trim l), numbers rest with
    | some n, some ns => some (n :: ns)
    | _, _ => none

/-- One line of source; an empty line is `some none`. -/
def parseLine (l : List Char) : Option (Option Line) :=
  let t := trim (dropComment l)
  let name := t.takeWhile (· ≠ ' ')
  let tail := trim (t.dropWhile (· ≠ ' '))
  if t = [] then some none
  else if tail = [] then some (some { mnemonic := name, operands := [] })
  else (numbers (splitCommas tail)).map fun ns => some { mnemonic := name, operands := ns }

/-! ## Commands and pseudo-instructions -/

/-- The value of an operand that has to fit `w` bits. -/
def fit (w n : Nat) : Option (BitVec w) := if n < 2 ^ w then some (BitVec.ofNat w n) else none

/-- The commands a line stands for: one command (R64), or a pseudo-instruction's expansion (R65). -/
def expand (p : Params) (l : Line) : Option (List Instr) :=
  match String.ofList l.mnemonic, l.operands with
  | "INIT", [] => some [.init]
  | "START", [v] => (fit 8 v).map fun v => [.start v]
  | "WRITE", [v] => (fit 8 v).map fun v => [.write v]
  | "READ", [f] => (fit 1 f).map fun f => [.read (f.getLsbD 0)]
  | "STOP", [] => some [.stop]
  | "DINIT", [] => some [.dinit]
  | "CURSOR", [c, g] => (fit 8 c).bind fun c => (fit 3 g).map fun g => [.cursor c g]
  | "CLEAR", [n] => (fit 12 n).map fun n => [.clear n]
  | "STREAM", [a, n] => (fit 12 a).bind fun a => (fit 12 n).map fun n => [.stream a n]
  | "RCHAR", [v] => (fit 8 v).map fun v => [.rchar v]
  | "RSTR", [a] => (fit 12 a).map fun a => [.rstr a]
  | "RDIGIT", [v] => (fit 8 v).map fun v => [.rdigit v]
  | "RFRAME", [] => some [.rframe]
  | "READ_MORE", [] => some [.read true]
  | "READ_LAST", [] => some [.read false]
  | "OPEN_CMD", [] => some [.start p.addrW, .write 0x00]
  | "OPEN_DATA", [] => some [.start p.addrW, .write 0x40]
  | "CLOSE", [] => some [.stop]
  | "START_W", [a] => (fit 7 a).map fun a => [.start (a ++ 0#1)]
  | "START_R", [a] => (fit 7 a).map fun a => [.start (a ++ 1#1)]
  | _, _ => none

/-- The commands of one line of source; `none` where it is not in the syntax. -/
def assembleLine (p : Params) (l : List Char) : Option (List Instr) :=
  match parseLine l with
  | none => none
  | some none => some []
  | some (some line) => expand p line

/-- A program is a list of lines, issued in order. -/
def assemble (p : Params) : List (List Char) → Option (List Instr)
  | [] => some []
  | l :: rest =>
    match assembleLine p l, assemble p rest with
    | some is, some more => some (is ++ more)
    | _, _ => none

/-- A command as a line of the syntax, operands in the order of the source's argument list. Micro-operations are not issued
by the host and have no syntax (R57). -/
def disassemble : Instr → Option Line
  | .init => some ⟨"INIT".toList, []⟩
  | .start v => some ⟨"START".toList, [v.toNat]⟩
  | .write v => some ⟨"WRITE".toList, [v.toNat]⟩
  | .read f => some ⟨"READ".toList, [f.toNat]⟩
  | .stop => some ⟨"STOP".toList, []⟩
  | .dinit => some ⟨"DINIT".toList, []⟩
  | .cursor c g => some ⟨"CURSOR".toList, [c.toNat, g.toNat]⟩
  | .clear n => some ⟨"CLEAR".toList, [n.toNat]⟩
  | .stream a n => some ⟨"STREAM".toList, [a.toNat, n.toNat]⟩
  | .rchar v => some ⟨"RCHAR".toList, [v.toNat]⟩
  | .rstr a => some ⟨"RSTR".toList, [a.toNat]⟩
  | .rdigit v => some ⟨"RDIGIT".toList, [v.toNat]⟩
  | .rframe => some ⟨"RFRAME".toList, []⟩
  | .sdaLow => none
  | .sdaRel => none
  | .sclLow => none
  | .sclRel => none
  | .sdaSample => none
  | .bothRel => none

end Sys2Proof.Asm
end

