-- ==== Sys2Proof/Machine/Observer.lean ====
section
/-! DEFINITION. The bus observer of 40_line_microops.md R80, R81: what a sequence of line levels means. It is not part of the
block; statements about what a command delivers are made through it. -/

namespace Sys2Proof.Machine

/-- What is read off two consecutive pairs of the waveform that differ (R80). -/
inductive Event where
  | startCond
  | stopCond
  /-- Clock rise carrying a bit. -/
  | rise (bit : Bool)
  /-- Clock fall. -/
  | fall
  /-- Data change under a LOW clock: no bus meaning. -/
  | setup
  deriving DecidableEq, Repr

/-- The event, if any, that a reading of a simultaneous change stands for (93_implementation_defined.md U2). -/
def readingEvent : SimultaneousReading → Option Event
  | .noEvent => none
  | .startCond => some .startCond
  | .stopCond => some .stopCond
  | .rise bit => some (.rise bit)

/-- The event between two consecutive pairs (R80's table), none where they do not differ. Where clock and data change in the
same pair the reading is unspecified and `both` gives it (log 18). -/
def eventOf (both : SimultaneousReading) (p q : Levels) : Option Event :=
  match p.scl, q.scl with
  | true, true => if p.sda = q.sda then none else some (if p.sda then .startCond else .stopCond)
  | false, false => if p.sda = q.sda then none else some .setup
  | false, true => if p.sda = q.sda then some (.rise q.sda) else readingEvent both
  | true, false => if p.sda = q.sda then some .fall else readingEvent both

/-- The events of a waveform that goes on from the pair `p`; `n` is the place of the next pair, and `both` gives the reading
of a simultaneous change by its place. -/
def eventsFrom (both : Nat → SimultaneousReading) (n : Nat) (p : Levels) : List Levels → List Event
  | [] => []
  | q :: rest => (eventOf (both n) p q).toList ++ eventsFrom both (n + 1) q rest

/-- The events of a waveform, in order. -/
def events (both : Nat → SimultaneousReading) : List Levels → List Event
  | [] => []
  | p :: rest => eventsFrom both 1 p rest

/-- Whether an event is one of the conditions and clock rises that the spec's vectors list. -/
def Event.onBus : Event → Bool
  | .startCond => true
  | .stopCond => true
  | .rise _ => true
  | .fall => false
  | .setup => false

/-- What the observer reads in a transaction (R81). -/
inductive Item where
  | start
  /-- A byte frame: eight data bits and the acknowledgment bit (`false` is ACK, `true` is NACK). -/
  | byte (value : Byte) (ack : Bool)
  | stop
  /-- A START or STOP condition while the grouped rises were no multiple of nine; how many were left over. -/
  | framingViolation (leftOver : Nat)
  deriving DecidableEq, Repr

/-- Where the observer is. -/
structure Reader where
  inTxn : Bool
  /-- The bits of the frame under way, first bit first. -/
  bits : List Bool
  /-- The clock rises that no clock fall and no condition has followed yet, oldest first. -/
  held : List Bool
  deriving DecidableEq, Repr

/-- The observer before anything has happened. -/
def Reader.idle : Reader := { inTxn := false, bits := [], held := [] }

/-- The byte of eight bits, first bit in bit 7 (30_encoding.md R61). -/
def byteOfBits (bits : List Bool) : Byte := bits.foldl shiftIn 0

/-- A data or acknowledgment bit joins the frame under way; the ninth completes it. -/
def Reader.addBit (r : Reader) (b : Bool) : Reader × List Item :=
  if r.bits.length = 8 then ({ r with bits := [] }, [.byte (byteOfBits r.bits) b])
  else ({ r with bits := r.bits ++ [b] }, [])

/-- Bits join the frame under way one after another. -/
def Reader.addBits (r : Reader) : List Bool → Reader × List Item
  | [] => (r, [])
  | b :: rest =>
    let (r1, items) := r.addBit b
    let (r2, more) := r1.addBits rest
    (r2, items ++ more)

/-- What a condition leaves over of a frame under way. -/
def Reader.leftOver (r : Reader) : List Item := if r.bits = [] then [] else [.framingViolation r.bits.length]

/-- One event. A rise counts as a bit once a fall has followed it; a rise that a condition follows, with no fall between,
belongs to the condition (R81). A condition in the middle of a frame is R81's framing violation; what becomes of the frame
R81 leaves open for a START condition: DESIGN CHOICE, its bits are dropped and the grouping of nine begins again (log 31). -/
def Reader.on (r : Reader) : Event → Reader × List Item
  | .startCond => ({ inTxn := true, bits := [], held := [] }, r.leftOver ++ [.start])
  | .stopCond => ({ inTxn := false, bits := [], held := [] }, r.leftOver ++ [.stop])
  | .rise b => ({ r with held := r.held ++ [b] }, [])
  | .fall => if r.inTxn then Reader.addBits { r with held := [] } r.held else ({ r with held := [] }, [])
  | .setup => (r, [])

/-- The observer after a list of events, and what it has read. -/
def Reader.run (r : Reader) : List Event → Reader × List Item
  | [] => (r, [])
  | e :: rest =>
    let (r1, items) := r.on e
    let (r2, more) := r1.run rest
    (r2, items ++ more)

/-- What the observer reads in a waveform. -/
def readItems (both : Nat → SimultaneousReading) (w : List Levels) : List Item := (Reader.idle.run (events both w)).2

end Sys2Proof.Machine
end

