-- ==== Sys2Proof/Machine/Plans.lean ====
section
/-! DEFINITION. The two functions the spec states its commands with: `uops(cmd)` on a state (00_scope.md R8) and legality
(30_encoding.md R58, condition 3), over all instructions. The meanings are written out per instruction; that they agree with
these two is a law. -/

namespace Sys2Proof.Machine

/-- `uops : Command -> State -> List Uop`. A micro-operation is its own plan. -/
def uops (i : Instr) (s : State) : List Uop :=
  match i with
  | .init => uopsInit
  | .start value => uopsStart value
  | .write value => uopsWrite value
  | .read flag => uopsRead flag
  | .stop => uopsStop
  | .dinit => uopsDinit s.cfg
  | .cursor column page => uopsCursor s.cfg column page
  | .clear count => uopsClear s.cfg count
  | .stream ptr len => uopsStream ptr len s
  | .rchar value => uopsRchar s.cfg value
  | .rstr ptr => uopsRstr ptr s
  | .rdigit value => uopsRdigit s.cfg value
  | .rframe => uopsRframe s
  | .sdaLow => [.sdaLow]
  | .sdaRel => [.sdaRel]
  | .sclLow => [.sclLow]
  | .sclRel => [.sclRel]
  | .sdaSample => [.sdaSample]
  | .bothRel => [.bothRel]

/-- The operand condition of R58 on the state at acceptance. -/
def legal (i : Instr) (s : State) : Bool :=
  match i with
  | .init => true
  | .start _ => true
  | .write _ => true
  | .read _ => true
  | .stop => true
  | .dinit => true
  | .cursor _ _ => true
  | .clear _ => true
  | .stream ptr len => streamFits ptr len
  | .rchar value => s.cfg.charOk value
  | .rstr ptr => stringOk ptr s
  | .rdigit value => s.cfg.digitOk value
  | .rframe => frameOk s
  | .sdaLow => true
  | .sdaRel => true
  | .sclLow => true
  | .sclRel => true
  | .sdaSample => true
  | .bothRel => true

end Sys2Proof.Machine
end

