-- ==== Sys2Proof/WellFormed.lean ====
section
/-! DEFINITION. Which instructions are well formed for a configuration: the operand conditions of 30_encoding.md R58 that
depend on the operands and the parameters alone. RSTR and RFRAME have conditions on the state besides, which Machine/ checks
at acceptance. Every well-formed and every ill-formed term has an encoding: an operand's width is in its type. -/

namespace Sys2Proof

/-- The operand condition of R58, as far as operands and parameters decide it. -/
def Instr.wf (p : Params) : Instr → Bool
  | .stream ptr len => streamFits ptr len
  | .rchar value => p.charOk value
  | .rdigit value => p.digitOk value
  | .init => true
  | .start _ => true
  | .write _ => true
  | .read _ => true
  | .stop => true
  | .dinit => true
  | .cursor _ _ => true
  | .clear _ => true
  | .rstr _ => true
  | .rframe => true
  | .sdaLow => true
  | .sdaRel => true
  | .sclLow => true
  | .sclRel => true
  | .sdaSample => true
  | .bothRel => true

end Sys2Proof
end

