-- ==== Sys2Proof/Safety.lean ====
section
/-! DEFINITION. The terms claims are stated in: the invariant of the state, the end of a run, an idle and a quiet bus, the
caller's contract, the frequency ceiling, and the uses of a location that holds no value of the spec's. -/

namespace Sys2Proof.Machine

/-- What every step keeps: 10_state.md R15's relation of `UPC` and `PLAN`, the canonical form of the two memories, and that
the waveform ends with the levels there are now (40_line_microops.md R80). -/
structure State.Inv (s : State) : Prop where
  upc_le : s.upc ≤ s.plan.length
  upc_end : s.upc = s.plan.length → s.plan = [] ∧ s.upc = 0
  fb_wf : Memory.wf Config.fbSize s.fb = true
  src_wf : Memory.wf Config.srcSize s.src = true
  wave_end : s.wave.getLast? = some s.levels

/-- The run has ended: every host access has completed and `BUSY = 0` (10_state.md R28). -/
def State.runEnded (s : State) : Bool := s.host.isEmpty && !s.busy

/-- Nobody else pulls a line LOW, and nothing but the sequencer and the host has a turn. -/
structure State.Quiet (s : State) : Prop where
  env_sda : s.envSdaLow = false
  env_scl : s.envSclLow = false
  no_sched : s.sched = []

/-- Both lines are HIGH (41_engine.md R85, R89). -/
def State.busIdle (s : State) : Bool := s.levelSda && s.levelScl

/-- The groups of 41_engine.md R93: START, any number of WRITE or READ, STOP; `inTxn` says whether a transaction is open
before the list. A composite command that frames itself stands where a group may, and RCHAR and RDIGIT, which are WRITEs,
stand where a WRITE may (log 32). -/
def groupsFrom (inTxn : Bool) : List Instr → Bool
  | [] => !inTxn
  | .start _ :: rest => !inTxn && groupsFrom true rest
  | .stop :: rest => inTxn && groupsFrom false rest
  | .write _ :: rest => inTxn && groupsFrom true rest
  | .read _ :: rest => inTxn && groupsFrom true rest
  | .rchar _ :: rest => inTxn && groupsFrom true rest
  | .rdigit _ :: rest => inTxn && groupsFrom true rest
  | .init :: _ => false
  | .dinit :: rest => !inTxn && groupsFrom false rest
  | .cursor _ _ :: rest => !inTxn && groupsFrom false rest
  | .clear _ :: rest => !inTxn && groupsFrom false rest
  | .stream _ _ :: rest => !inTxn && groupsFrom false rest
  | .rstr _ :: rest => !inTxn && groupsFrom false rest
  | .rframe :: rest => !inTxn && groupsFrom false rest
  | .sdaLow :: _ => false
  | .sdaRel :: _ => false
  | .sclLow :: _ => false
  | .sclRel :: _ => false
  | .sdaSample :: _ => false
  | .bothRel :: _ => false

/-- A command sequence that respects the caller's contract: INIT once, at the beginning, then any number of groups
(41_engine.md R93). -/
def respectsContract : List Instr → Bool
  | [] => false
  | i :: rest => decide (i = .init) && groupsFrom false rest

/-- The frequency ceiling (70_reset_and_hazards.md R160, 93_implementation_defined.md U13): a hypothesis on the platform that
nothing checks. -/
def frequencyCeiling (p : Params) : Prop := max p.tHighMin p.tLowMin ≤ p.tStep

/-! ## Locations that hold no value of the spec's (10_state.md R23)

The spec would have a model refuse a use of one; this model goes on with a free value (log 5, 6, 7), and these say which uses
they are. -/

/-- `RXD` holds a value once eight samples have been taken since reset. -/
def State.rxdHasValue (s : State) : Bool := decide (8 ≤ s.trace.count Uop.sdaSample)

/-- The bytes of `SRC` from `a` on, among the next `room`, up to the first terminator, have all been written. -/
def State.scanWritten (s : State) (room a : Nat) : Bool :=
  match room with
  | 0 => true
  | room + 1 => (Memory.read s.src a).isSome && (decide (s.srcByte a = s.cfg.term) || s.scanWritten room (a + 1))

/-- Whether every byte a command's plan would depend on has been written since reset. -/
def readsWritten (i : Instr) (s : State) : Bool :=
  match i with
  | .stream ptr len => (List.range len.toNat).all fun k => (Memory.read s.src (ptr.toNat + k)).isSome
  | .rstr ptr => s.scanWritten (Config.srcSize - ptr.toNat) ptr.toNat
  | .rframe => (List.range Config.fbSize).all fun k => (Memory.read s.fb k).isSome
  | .init => true
  | .start _ => true
  | .write _ => true
  | .read _ => true
  | .stop => true
  | .dinit => true
  | .cursor _ _ => true
  | .clear _ => true
  | .rchar _ => true
  | .rdigit _ => true
  | .sdaLow => true
  | .sdaRel => true
  | .sclLow => true
  | .sclRel => true
  | .sdaSample => true
  | .bothRel => true

/-- Whether a register a host read returns holds a value of the spec's. -/
def regHasValue (r : HostReg) (s : State) : Bool :=
  match r with
  | .rxd => s.rxdHasValue
  | .fb i => (Memory.read s.fb i).isSome
  | .src p => (Memory.read s.src p).isSome
  | .cmd => true
  | .stat => true
  | .dir => true
  | .out => true
  | .pin => true

/-! ## Legality in the spec's words -/

/-- The operand condition of 30_encoding.md R58, written with its quantifiers. -/
def operandsLegal (i : Instr) (s : State) : Prop :=
  match i with
  | .stream ptr len => ptr.toNat + len.toNat ≤ 4096
  | .rchar value => 32 ≤ value.toNat ∧ value.toNat - 32 < s.cfg.n5
  | .rstr ptr => ∃ k, ptr.toNat + k < 4096 ∧ s.srcByte (ptr.toNat + k) = s.cfg.term ∧
      ∀ j < k, s.srcByte (ptr.toNat + j) ≠ s.cfg.term ∧ 32 ≤ (s.srcByte (ptr.toNat + j)).toNat ∧
        (s.srcByte (ptr.toNat + j)).toNat - 32 < s.cfg.n5
  | .rdigit value => value.toNat < s.cfg.n3
  | .rframe => ∀ k < 8, (s.fbEntry k).toNat < s.cfg.n3
  | .init => True
  | .start _ => True
  | .write _ => True
  | .read _ => True
  | .stop => True
  | .dinit => True
  | .cursor _ _ => True
  | .clear _ => True
  | .sdaLow => True
  | .sdaRel => True
  | .sclLow => True
  | .sclRel => True
  | .sdaSample => True
  | .bothRel => True

/-- Whether a word is illegal when its issue completes in `s` (R58): it decodes to nothing, or its operand condition fails. -/
def IllegalWord (w : CmdWord) (s : State) : Prop :=
  (∀ i, decodeWord w ≠ .ok i) ∨ ∃ i, decodeWord w = .ok i ∧ ¬ operandsLegal i s

/-- The command word of a command. -/
def wordOf (i : Instr) : CmdWord :=
  match encode i with
  | .word w => w
  | .code c => c.setWidth 32

/-! ## Runs -/

/-- `n` steps. -/
def runSteps (n : Nat) (s : State) : Result := Host.Core.run Sys2Proof.core n s

/-- Whether a turn is the sequencer's or the environment's. -/
def Turn.sequencerOrEnv : Turn → Bool
  | .sequencer => true
  | .env _ _ => true
  | .host => false
  | .reset => false

/-- A plan has just been accepted and the turns to come are the sequencer's, as many as the plan is long, with anything the
environment may do between them. -/
structure State.Ready (s : State) (plan : List Uop) (turns : List Turn) : Prop where
  plan_eq : s.plan = plan
  upc_eq : s.upc = 0
  sched_eq : s.sched = turns
  agents : turns.all Turn.sequencerOrEnv = true
  enough : turns.count Turn.sequencer = plan.length

/-- `k` turns of the sequencer. -/
def seqTurns (k : Nat) : List Turn := List.replicate k .sequencer

/-- What the performing of a plan leaves alone. -/
structure State.RunFrame (s t : State) : Prop where
  cfg : t.cfg = s.cfg
  ill : t.ill = s.ill
  fb : ∀ i, Memory.read t.fb i = Memory.read s.fb i
  src : ∀ p, Memory.read t.src p = Memory.read s.src p
  host : t.host = s.host
  hostLog : t.hostLog = s.hostLog
  epoch : t.epoch = s.epoch

/-- What one micro-operation leaves alone, whichever it is: all but the drive bits, `RXD`, the two records and the count of
drawn release orders. -/
structure State.LineFrame (s t : State) : Prop where
  cfg : t.cfg = s.cfg
  plan : t.plan = s.plan
  upc : t.upc = s.upc
  ill : t.ill = s.ill
  fb : ∀ i, Memory.read t.fb i = Memory.read s.fb i
  src : ∀ p, Memory.read t.src p = Memory.read s.src p
  env_sda : t.envSdaLow = s.envSdaLow
  env_scl : t.envSclLow = s.envSclLow
  host : t.host = s.host
  sched : t.sched = s.sched
  hostLog : t.hostLog = s.hostLog
  epoch : t.epoch = s.epoch

/-- The conditions and clock rises on the bus between two states of a run. -/
def busSince (s t : State) : List Event :=
  (eventsFrom (Config.simultaneous s.epoch) s.wave.length s.levels (t.wave.drop s.wave.length)).filter Event.onBus

/-- What the observer reads between two states of a run, if no transaction was open before. -/
def readSince (s t : State) : List Item :=
  (Reader.idle.run (eventsFrom (Config.simultaneous s.epoch) s.wave.length s.levels (t.wave.drop s.wave.length))).2

/-- The frame a caller's command inside a transaction puts on a bus on which nobody answers: WRITE its byte, unacknowledged;
READ eight 1 bits, with the acknowledgment its flag asks for. -/
def framesOf : Instr → List Item
  | .write v => [.byte v true]
  | .read flag => [.byte 0xFF (!flag)]
  | .init => []
  | .start _ => []
  | .stop => []
  | .dinit => []
  | .cursor _ _ => []
  | .clear _ => []
  | .stream _ _ => []
  | .rchar _ => []
  | .rstr _ => []
  | .rdigit _ => []
  | .rframe => []
  | .sdaLow => []
  | .sdaRel => []
  | .sclLow => []
  | .sclRel => []
  | .sdaSample => []
  | .bothRel => []

/-- Whether an event is a clock rise. -/
def Event.isRise : Event → Bool
  | .rise _ => true
  | .startCond => false
  | .stopCond => false
  | .fall => false
  | .setup => false

/-- The bits of a byte, bit 7 first, as clock rises that carry them. -/
def risesOf (v : Byte) : List Event := [7, 6, 5, 4, 3, 2, 1, 0].map fun i => Event.rise (v.getLsbD i)

/-- The number of 1 bits of a byte (41_engine.md R90). -/
def popcount (v : Byte) : Nat := ([0, 1, 2, 3, 4, 5, 6, 7].filter fun i => v.getLsbD i).length

/-- The turns of a READ whose environment presents a bit before each sampled pulse, while the clock is LOW, and then the level
it leaves the data line at for the ninth pulse. -/
def readTurns (bits : List Bool) (flag last : Bool) : List Turn :=
  seqTurns 1 ++ (bits.flatMap fun b => .env (!b) false :: seqTurns 3) ++ .env (!last) false :: seqTurns (if flag then 4 else 3)

/-- The turns of a WRITE whose environment may pull the data line LOW before each of the nine pulses, while the clock is
LOW. -/
def writeTurns (v : Byte) (pulls : List Bool) (ackPull : Bool) : List Turn :=
  ((pulls.zip [7, 6, 5, 4, 3, 2, 1, 0]).flatMap fun q =>
    .env q.1 false :: seqTurns (if v.getLsbD q.2 then 4 else 3)) ++ .env ackPull false :: seqTurns 3

/-! ## What the environment can influence -/

/-- Two turns that differ at most in what the environment does. -/
def Turn.sameShape : Turn → Turn → Bool
  | .env _ _, .env _ _ => true
  | .sequencer, .sequencer => true
  | .host, .host => true
  | .reset, .reset => true
  | .env _ _, .sequencer => false
  | .env _ _, .host => false
  | .env _ _, .reset => false
  | .sequencer, .env _ _ => false
  | .sequencer, .host => false
  | .sequencer, .reset => false
  | .host, .env _ _ => false
  | .host, .sequencer => false
  | .host, .reset => false
  | .reset, .env _ _ => false
  | .reset, .sequencer => false
  | .reset, .host => false

/-- Two states that differ at most in the environment's inputs, past, present and to come, and in what those inputs reach:
`RXD`, the levels seen on the lines and what the host has read. -/
structure State.SameButEnv (s t : State) : Prop where
  cfg : s.cfg = t.cfg
  drvSda : s.drvSda = t.drvSda
  drvScl : s.drvScl = t.drvScl
  plan : s.plan = t.plan
  upc : s.upc = t.upc
  ill : s.ill = t.ill
  fb : s.fb = t.fb
  src : s.src = t.src
  host : s.host = t.host
  trace : s.trace = t.trace
  epoch : s.epoch = t.epoch
  draws : s.draws = t.draws
  sched : List.Forall₂ (fun x y => Turn.sameShape x y = true) s.sched t.sched

/-- Two outcomes of the same kind, for the same reason, with states that `R` relates. -/
def Result.Related (R : State → State → Prop) (a b : Result) : Prop :=
  match a with
  | .next s => ∃ t, b = .next t ∧ R s t
  | .fault f => b = .fault f
  | .refused f => b = .refused f

end Sys2Proof.Machine
end

