-- ==== Sys2Proof/Certificates/Slice0/Obligations.lean ====
section
/-! DEFINITION. The statements for the provers. Each docstring names the rule of spec/ it formalises or rests on. -/

open Sys2Proof Sys2Proof.Machine

/-! ## Encodings -/

/-- 95_test_vectors.md V-X1 to V-X13 and 30_encoding.md R57: the spec's own words, one per command, and the six codes. -/
def Obligations.WordsOfTheSpecDecode : Prop :=
  decodeWord 0x00000000 = .ok .init ∧ decodeWord 0x01000078 = .ok (.start 0x78) ∧
  decodeWord 0x020000A5 = .ok (.write 0xA5) ∧ decodeWord 0x03000001 = .ok (.read true) ∧
  decodeWord 0x04000000 = .ok .stop ∧ decodeWord 0x10000000 = .ok .dinit ∧
  decodeWord 0x11003025 = .ok (.cursor 0x25 3) ∧ decodeWord 0x12000200 = .ok (.clear 512) ∧
  decodeWord 0x13010003 = .ok (.stream 0x010 3) ∧ decodeWord 0x20000041 = .ok (.rchar 0x41) ∧
  decodeWord 0x21100000 = .ok (.rstr 0x100) ∧ decodeWord 0x22000000 = .ok (.rdigit 0) ∧
  decodeWord 0x23000000 = .ok .rframe ∧
  [0, 1, 2, 3, 4, 5].map (fun c => decode (.code c)) =
    [.ok .sdaLow, .ok .sdaRel, .ok .sclLow, .ok .sclRel, .ok .sdaSample, .ok .bothRel]

/-- 30_encoding.md section 1 to 4: every instruction, with every operand at every value its field has, is read back from its
encoding. -/
def Obligations.DecodeOfEncodeIsTheInstruction : Prop :=
  ∀ i : Instr, decode (encode i) = .ok i

/-- 30_encoding.md R60: "the same word means the same command in every state", and no word but a command's own encoding means
it: what decodes is the encoding of what it decodes to. -/
def Obligations.EncodeOfDecodeIsTheEncoding : Prop :=
  ∀ (e : Encoded) (i : Instr), decode e = .ok i → encode i = e

/-- The match and mask of spec/opcode_table.json: a word decodes to an instruction of a row exactly when it matches the row. -/
def Obligations.DecodesExactlyTheTableRows : Prop :=
  ∀ (w : CmdWord) (row : TableRow), row ∈ opcodeTable →
    (w &&& row.mask = row.value ↔ ∃ i, decodeWord w = .ok i ∧ i.mnemonic = row.mnemonic)

/-- 30_encoding.md section 5: an opcode that is none of the thirteen is reserved and illegal, whatever the other bits are. That the
model takes this effect and not the alternative of refusing the program is log 8. -/
def Obligations.ReservedOpcodesAreIllegal : Prop :=
  ∀ (w : CmdWord) (s : State),
    (opOf w).toNat ∉ [0x00, 0x01, 0x02, 0x03, 0x04, 0x10, 0x11, 0x12, 0x13, 0x20, 0x21, 0x22, 0x23] →
      decodeWord w = .error (.reservedOpcode (opOf w)) ∧ issueWord w s = .next { s with ill := true }

/-- 30_encoding.md section 7: a command's line of assembler syntax stands for that command, for every parameter record;
each of the seven pseudo-instructions stands for what R65 lists, the two with an operand for every 7-bit address. A line is taken as its
mnemonic and operands; how text is read as a line is the model's (log 23). -/
def Obligations.AssemblerLineIsItsCommand : Prop :=
  (∀ (p : Params) (i : Instr) (l : Asm.Line), Asm.disassemble i = some l → Asm.expand p l = some [i]) ∧
  (∀ p : Params, Asm.expand p ⟨"READ_MORE".toList, []⟩ = some [.read true] ∧
    Asm.expand p ⟨"READ_LAST".toList, []⟩ = some [.read false] ∧
    Asm.expand p ⟨"OPEN_CMD".toList, []⟩ = some [.start p.addrW, .write 0x00] ∧
    Asm.expand p ⟨"OPEN_DATA".toList, []⟩ = some [.start p.addrW, .write 0x40] ∧
    Asm.expand p ⟨"CLOSE".toList, []⟩ = some [.stop]) ∧
  (∀ (p : Params) (a : BitVec 7),
    Asm.expand p ⟨"START_W".toList, [a.toNat]⟩ = some [.start ((a.setWidth 8 <<< 1) ||| 0)] ∧
    Asm.expand p ⟨"START_R".toList, [a.toNat]⟩ = some [.start ((a.setWidth 8 <<< 1) ||| 1)])

/-! ## The step -/

/-- 10_state.md R15, R17: a turn of the sequencer performs the micro-operation at `UPC` and moves `UPC` past it, and ends the
plan with the last; a turn of the host on an idle block runs the command the issued word decodes to.
Whose turn it is, is data of the state (log 1). -/
def Obligations.StepRunsWhatItFetches : Prop :=
  (∀ (s t : State) (u : Uop), s.nextTurn = .sequencer → s.plan[s.upc]? = some u → exec u.toInstr s.popTurn = .next t →
    step s = .next (if s.upc + 1 = s.plan.length then { t with plan := [], upc := 0 } else { t with upc := s.upc + 1 })) ∧
  (∀ (s : State) (w : CmdWord) (rest : List HostAction) (i : Instr), s.nextTurn = .host → s.plan = [] →
    s.host = .issue w :: rest → decodeWord w = .ok i →
    step s = exec i { s with sched := s.sched.tail, host := rest })

/-- The model's own placing of a row's instruction where the next step takes it from (log 17): the step runs exactly it. -/
def Obligations.FetchWordIsRunByTheNextStep : Prop :=
  ∀ (s : State) (nbits w : Nat) (i : Instr), decodeTableWord nbits w = some i →
    (i.isCommand = true → step (s.withFetchWord nbits w) = exec i { s with plan := [], upc := 0 }) ∧
    (∀ u, i.toUop = some u → ∃ t, exec i { s with plan := [u], upc := 0 } = .next t ∧
      step (s.withFetchWord nbits w) = .next { t with plan := [], upc := 0 })

/-- 60_exceptions.md R130: "No micro-operation, no engine operation, no composite command can fail; each is a total function of
the state and its operands". A command's meaning is its acceptance (log 21). -/
def Obligations.EveryInstructionAnswersANextState : Prop :=
  ∀ (i : Instr) (s : State), ∃ t, exec i s = .next t

/-- 10_state.md R14, R17 and 00_scope.md R8: a legal command sets `PLAN` to `uops(cmd)` evaluated on the state at that moment
and `UPC` to 0, an illegal one sets `ILL`; nothing else changes. The
model takes the defined effect of an illegal word and not the alternative of refusing it (log 8). -/
def Obligations.CommandsAreAcceptedByTheirPlans : Prop :=
  ∀ (i : Instr) (s : State), i.isCommand = true →
    (operandsLegal i s → exec i s = .next { s with plan := uops i s, upc := 0 }) ∧
    (¬ operandsLegal i s → exec i s = .next { s with ill := true })

/-- 30_encoding.md section 5: when the issue of an illegal word completes, `ILL` is set and nothing else changes but that the
host's access and the turn are used up.
Turns are the model's (log 1); the defined effect is taken and not the alternative of refusing the program (log 8). -/
def Obligations.IllegalWordIsDroppedWhole : Prop :=
  ∀ (s : State) (w : CmdWord) (rest : List HostAction), s.nextTurn = .host → s.plan = [] → s.host = .issue w :: rest →
    IllegalWord w s → step s = .next { s with sched := s.sched.tail, host := rest, ill := true }

/-! ## Micro-operations -/

/-- 40_line_microops.md R71 to R74: each of the four sets its drive bit, joins the trace whether or not anything changed,
shows on the waveform, and leaves everything else. The trace and the
waveform clauses are R79 and R80, kept as fields (log 12); that each step adds the pair it leaves is log 30. -/
def Obligations.DriveMicroOpsSetTheirBit : Prop :=
  (∀ s : State, ∃ t, exec .sdaLow s = .next t ∧ t.drvSda = true ∧ t.levelSda = false ∧ t.drvScl = s.drvScl ∧
    t.rxd = s.rxd ∧ t.draws = s.draws ∧ t.trace = s.trace ++ [.sdaLow] ∧ t.wave = s.wave ++ [t.levels] ∧
    s.LineFrame t) ∧
  (∀ s : State, ∃ t, exec .sdaRel s = .next t ∧ t.drvSda = false ∧ t.levelSda = !s.envSdaLow ∧ t.drvScl = s.drvScl ∧
    t.rxd = s.rxd ∧ t.draws = s.draws ∧ t.trace = s.trace ++ [.sdaRel] ∧ t.wave = s.wave ++ [t.levels] ∧
    s.LineFrame t) ∧
  (∀ s : State, ∃ t, exec .sclLow s = .next t ∧ t.drvScl = true ∧ t.levelScl = false ∧ t.drvSda = s.drvSda ∧
    t.rxd = s.rxd ∧ t.draws = s.draws ∧ t.trace = s.trace ++ [.sclLow] ∧ t.wave = s.wave ++ [t.levels] ∧
    s.LineFrame t) ∧
  (∀ s : State, ∃ t, exec .sclRel s = .next t ∧ t.drvScl = false ∧ t.levelScl = !s.envSclLow ∧ t.drvSda = s.drvSda ∧
    t.rxd = s.rxd ∧ t.draws = s.draws ∧ t.trace = s.trace ++ [.sclRel] ∧ t.wave = s.wave ++ [t.levels] ∧
    s.LineFrame t) ∧
  decode (.code 0) = .ok .sdaLow ∧ decode (.code 1) = .ok .sdaRel ∧ decode (.code 2) = .ok .sclLow ∧
  decode (.code 3) = .ok .sclRel

/-- 40_line_microops.md R75: the old bit 7 is dropped, every other bit moves up one, the level of the data line enters at bit
0; that level is 0 while the block drives the line; neither drive bit changes, nor anything else.
The trace and the waveform clauses are R79 and R80, kept as fields (log 12); that each step adds the pair it leaves is log 30. -/
def Obligations.SampleShiftsTheDataLevelIn : Prop :=
  (∀ s : State, ∃ t, exec .sdaSample s = .next t ∧ t.rxd.getLsbD 0 = s.levelSda ∧
    (∀ j < 7, t.rxd.getLsbD (j + 1) = s.rxd.getLsbD j) ∧ (s.drvSda = true → t.rxd.getLsbD 0 = false) ∧
    (s.drvSda = false → t.rxd.getLsbD 0 = !s.envSdaLow) ∧ t.drvSda = s.drvSda ∧ t.drvScl = s.drvScl ∧
    t.draws = s.draws ∧ t.trace = s.trace ++ [.sdaSample] ∧ t.wave = s.wave ++ [t.levels] ∧ s.LineFrame t) ∧
  decode (.code 4) = .ok .sdaSample

/-- 40_line_microops.md R77: both drive bits are 0 afterwards; where both lines were driven, the waveform passes through what
some one of the three orders gives, whichever it is, and where they were not it passes through nothing.
The order is a free value (log 9); which pairs join the waveform is log 30. -/
def Obligations.BothRelReleasesInSomeOrder : Prop :=
  (∀ s : State, ∃ t o, exec .bothRel s = .next t ∧ t.drvSda = false ∧ t.drvScl = false ∧ t.rxd = s.rxd ∧
    t.trace = s.trace ++ [.bothRel] ∧ s.LineFrame t ∧
    (s.drvSda = true → s.drvScl = true → t.wave = s.wave ++ (match o with
      | ReleaseOrder.dataFirst => [Levels.of false true s.envSdaLow s.envSclLow]
      | ReleaseOrder.clockFirst => [Levels.of true false s.envSdaLow s.envSclLow]
      | ReleaseOrder.together => []) ++ [t.levels]) ∧
    (¬ (s.drvSda = true ∧ s.drvScl = true) → t.wave = s.wave ++ [t.levels])) ∧
  decode (.code 5) = .ok .bothRel

/-- 40_line_microops.md R84: performing a micro-operation twice leaves the drive bits as performing it once, and only
SDA_SAMPLE's second performing can change `RXD` again: with the data line HIGH and `RXD` zero it does. -/
def Obligations.MicroOpsAreTotalAndIdempotentOnDriveBits : Prop :=
  (∀ (u : Uop) (s : State), ∃ t t', exec u.toInstr s = .next t ∧ exec u.toInstr t = .next t' ∧
    t'.drvSda = t.drvSda ∧ t'.drvScl = t.drvScl ∧ (u ≠ .sdaSample → t'.rxd = s.rxd)) ∧
  (∀ (u : Uop) (s s' t t' : State), exec u.toInstr s = .next t → exec u.toInstr s' = .next t' →
    (t.drvSda = s.drvSda ∨ t'.drvSda = t.drvSda) ∧ (t.drvScl = s.drvScl ∨ t'.drvScl = t.drvScl)) ∧
  (∀ s : State, s.levelSda = true → s.rxd = 0 → ∃ t t', exec .sdaSample s = .next t ∧ exec .sdaSample t = .next t' ∧
    t'.rxd ≠ t.rxd)

/-- 40_line_microops.md R70, R76 and 10_state.md R11: a line is LOW exactly when the block or the environment pulls it, and
the output latch reads 0 in every state. -/
def Obligations.LineLevelsAreWiredAnd : Prop :=
  ∀ s : State, (s.levelSda = false ↔ s.drvSda = true ∨ s.envSdaLow = true) ∧
    (s.levelScl = false ↔ s.drvScl = true ∨ s.envSclLow = true) ∧ s.out = 0

/-! ## The I2C Engine -/

/-- 41_engine.md R85 to R89: on every state the five commands set exactly these plans, and change nothing else. -/
def Obligations.EngineCommandsSetTheirPlans : Prop :=
  ∀ (s : State) (v : Byte) (f : Bool),
    exec .init s = .next { s with plan := [.bothRel], upc := 0 } ∧
    exec (.write v) s = .next { s with
      plan := ((List.range 8).flatMap fun i =>
          [Uop.sdaLow] ++ (if v.getLsbD (7 - i) = true then [.sdaRel] else []) ++ [.sclRel, .sclLow])
        ++ [.sdaRel, .sclRel, .sclLow]
      upc := 0 } ∧
    exec (.start v) s = .next { s with plan := [.sdaLow, .sclLow] ++ uops (.write v) s, upc := 0 } ∧
    exec (.read f) s = .next { s with
      plan := [.sdaRel] ++ ((List.range 8).flatMap fun _ => [Uop.sclRel, .sdaSample, .sclLow])
        ++ (if f = true then [.sdaLow] else []) ++ [.sclRel, .sclLow] ++ [.sdaRel]
      upc := 0 } ∧
    exec .stop s = .next { s with plan := [.sdaLow, .sclRel, .sdaRel], upc := 0 }

/-- 41_engine.md R90: the plan lengths, and that every legal command's plan has at least one micro-operation. -/
def Obligations.EnginePlanLengths : Prop :=
  (∀ (s : State) (v : Byte), (uops .init s).length = 1 ∧ (uops (.start v) s).length = 29 + popcount v ∧
    (uops (.write v) s).length = 27 + popcount v ∧ (uops (.read false) s).length = 28 ∧
    (uops (.read true) s).length = 29 ∧ (uops .stop s).length = 3) ∧
  (∀ (i : Instr) (s : State), i.isCommand = true → operandsLegal i s → 1 ≤ (uops i s).length)

/-- 42_display.md R100: the length of a transaction's plan, for every mode byte and every list of bytes. -/
def Obligations.TransactionLength : Prop :=
  ∀ (p : Params) (m : Byte) (bs : List Byte),
    (txn p m bs).length =
      5 + 27 * (2 + bs.length) + popcount p.addrW + popcount m + (bs.map popcount).sum

/-- 30_encoding.md R66: no plan is longer than 860025 micro-operations, so `UPC` fits in 20 bits. DINIT is left out: the length
of `INIT_SEQ` is an open parameter, and R66 counts RSTR as the longest (log 25). -/
def Obligations.PlansAreBounded : Prop :=
  ∀ (i : Instr) (s : State), i ≠ .dinit → operandsLegal i s → (uops i s).length ≤ 860025 ∧ (uops i s).length < 2 ^ 20

/-- 10_state.md R15, 40_line_microops.md R78, R79, 41_engine.md R91: whatever the environment does between the steps, a plan
is performed to its end in exactly as many turns of the sequencer as it is long; the trace is the plan; nothing but the
drive bits, `RXD` and the levels is touched. The turns are a schedule of the sequencer's and the environment's (log 1, log 11). -/
def Obligations.PlansRunToTheirEnd : Prop :=
  ∀ (s : State) (plan : List Uop) (turns : List Turn), s.Ready plan turns →
    ∃ t, runSteps turns.length s = .next t ∧ t.plan = [] ∧ t.upc = 0 ∧ t.trace = s.trace ++ plan ∧ t.sched = [] ∧
      s.RunFrame t

/-- 40_line_microops.md R79 and 60_exceptions.md R142: "no micro-operation sequence depends on a sampled value". Two states
that differ only in what the environment has done and will do step to states that differ only in that: the drive bits, the
trace, the plan, the flags and the memories never depend on it.
The environment's inputs and turns are data of the state (log 1, log 11). -/
def Obligations.EnvironmentReachesOnlyRxdAndLevels : Prop :=
  ∀ s t : State, s.SameButEnv t → Result.Related State.SameButEnv (step s) (step t)

/-- 41_engine.md R92: "Drive bits on completion, from any starting state", for any environment; and the first micro-operation
of each command puts the data line where it wants it. Turns are the model's (log 1). -/
def Obligations.DriveBitsOnCompletion : Prop :=
  (∀ (i : Instr) (s : State) (turns : List Turn), s.Ready (uops i s) turns →
    ((∃ v, i = .start v) ∨ (∃ v, i = .write v) ∨ (∃ f, i = .read f) →
      ∃ t, runSteps turns.length s = .next t ∧ t.drvSda = false ∧ t.drvScl = true ∧ t.levelSda = !t.envSdaLow ∧
        t.levelScl = false) ∧
    (i = .init ∨ i = .stop →
      ∃ t, runSteps turns.length s = .next t ∧ t.drvSda = false ∧ t.drvScl = false ∧ t.levelSda = !t.envSdaLow ∧
        t.levelScl = !t.envSclLow)) ∧
  (∀ (i : Instr) (s : State), i.isCommand = true → operandsLegal i s →
    (uops i s).head? = some .sdaLow ∨ (uops i s).head? = some .sdaRel ∨ (uops i s).head? = some .bothRel)

/-- 41_engine.md R88, R95: READ ends with the eight sampled bits in `RXD`, the first in bit 7, whatever `RXD` held; the bus
shows nine clock rises, the eight bits and then 0 (ACK) when the flag is set or the level the slave leaves (NACK) when not,
and no condition. The environment presents any bits, changing the data line only while the clock is LOW.
Turns are the model's (log 1, log 11). -/
def Obligations.ReadReceivesTheByte : Prop :=
  ∀ (s : State) (bits : List Bool) (flag last : Bool), bits.length = 8 → s.drvScl = true →
    s.plan = uops (.read flag) s → s.upc = 0 → s.sched = readTurns bits flag last →
    ∃ t, runSteps s.sched.length s = .next t ∧ (∀ j < 8, some (t.rxd.getLsbD (7 - j)) = bits[j]?) ∧
      t.drvSda = false ∧ t.drvScl = true ∧ t.plan = [] ∧
      busSince s t = bits.map Event.rise ++ [.rise (!flag && last)]

/-- 41_engine.md R87, R94: the bus shows nine clock rises and no condition; the first eight carry the byte from bit 7 down,
each turned to 0 where the environment pulls the data line LOW, the ninth the receiver's acknowledgment; `RXD` is not
written. The environment may pull the line before any pulse, while the clock is LOW.
Turns are the model's (log 1, log 11). -/
def Obligations.WriteDeliversTheByte : Prop :=
  ∀ (s : State) (v : Byte) (pulls : List Bool) (ackPull : Bool), pulls.length = 8 → s.drvScl = true →
    s.plan = uops (.write v) s → s.upc = 0 → s.sched = writeTurns v pulls ackPull →
    ∃ t, runSteps s.sched.length s = .next t ∧ t.rxd = s.rxd ∧ t.drvSda = false ∧ t.drvScl = true ∧ t.plan = [] ∧
      busSince s t = (pulls.zip [7, 6, 5, 4, 3, 2, 1, 0]).map (fun q => Event.rise (v.getLsbD q.2 && !q.1))
        ++ [.rise (!ackPull)]

/-- 41_engine.md R96: from an idle bus and a quiet environment, START, any number of WRITEs and READs, and STOP, issued by the
host as command words, are read as one START condition, the address frame, one frame per command and one STOP condition,
with `9 * (n + 1) + 1` raw clock rises, and leave the bus idle. Nobody acknowledges: a READ sees 0xFF.
With no turns listed the sequencer moves while it has a plan and the host otherwise (log 1); how rises are grouped is log 19. -/
def Obligations.FramingOfACallersTransaction : Prop :=
  ∀ (s : State) (a : Byte) (cs : List Instr),
    (∀ c ∈ cs, (∃ v, c = .write v) ∨ (∃ f, c = .read f)) →
    s.Quiet → s.drvSda = false → s.drvScl = false → s.plan = [] → s.upc = 0 →
    s.host = ((Instr.start a :: cs) ++ [Instr.stop]).map (fun i => HostAction.issue (wordOf i)) →
    ∃ n t, runSteps n s = .next t ∧ t.runEnded = true ∧ t.busIdle = true ∧ t.ill = s.ill ∧
      readSince s t = [Item.start, Item.byte a true] ++ cs.flatMap framesOf ++ [Item.stop] ∧
      ((busSince s t).filter Event.isRise).length = 9 * (cs.length + 1) + 1

/-- 41_engine.md R97: a START performed while the block holds the clock line LOW puts no START condition on the bus; its
address byte is nine clock rises like a data byte's.
With no turns listed the sequencer moves (log 1). -/
def Obligations.NoRepeatedStart : Prop :=
  ∀ (s : State) (a : Byte), s.Quiet → s.drvScl = true → s.plan = uops (.start a) s → s.upc = 0 →
    ∃ t, runSteps s.plan.length s = .next t ∧ t.plan = [] ∧ busSince s t = risesOf a ++ [.rise true]

/-- 41_engine.md R89 and its corner cases: from a LOW clock STOP shows one clock rise carrying 0 and then a STOP condition; on
an idle bus it makes an empty transaction; with the data line stuck LOW it shows no condition.
With no turns listed the sequencer moves (log 1). -/
def Obligations.StopOnTheBus : Prop :=
  ∀ s : State, s.envSclLow = false → s.sched = [] → s.plan = uops .stop s → s.upc = 0 →
    ∃ t, runSteps 3 s = .next t ∧ t.plan = [] ∧ t.drvSda = false ∧ t.drvScl = false ∧ t.rxd = s.rxd ∧
      (s.drvScl = true → s.envSdaLow = false → busSince s t = [.rise false, .stopCond] ∧ t.busIdle = true) ∧
      (s.drvSda = false → s.drvScl = false → s.envSdaLow = false → busSince s t = [.startCond, .stopCond]) ∧
      (s.drvScl = true → s.envSdaLow = true → busSince s t = [.rise false])

/-- 70_reset_and_hazards.md R170 and 40_line_microops.md R77: INIT on a quiet bus with both lines driven LOW shows a clock rise
carrying 0 and a STOP condition (clock first), or a clock rise carrying 1 and no condition (data first), or what the
unspecified reading of a simultaneous change gives (together), and nothing says which; from any other state it shows what the one moving line gives. The order is a free value (log 9), both lines at once
is a free reading (log 18), and with no turns listed the sequencer moves (log 1). -/
def Obligations.InitOnTheBus : Prop :=
  ∀ s : State, s.Quiet → s.plan = uops .init s → s.upc = 0 →
    ∃ t, runSteps 1 s = .next t ∧ t.plan = [] ∧ t.drvSda = false ∧ t.drvScl = false ∧ t.busIdle = true ∧
      s.RunFrame t ∧ t.rxd = s.rxd ∧
      (s.drvSda = true → s.drvScl = true →
        busSince s t = [.rise false, .stopCond] ∨ busSince s t = [.rise true] ∨
        ∃ reading : SimultaneousReading, busSince s t = (readingEvent reading).toList) ∧
      (s.drvSda = true → s.drvScl = false → busSince s t = [.stopCond]) ∧
      (s.drvSda = false → s.drvScl = true → busSince s t = [.rise true]) ∧
      (s.drvSda = false → s.drvScl = false → busSince s t = [])

/-! ## The Display Driver -/

/-- 42_display.md R101 to R104: the four commands set these plans, STREAM only when its range lies inside `SRC`, and change
nothing else. `SRC` bytes the host has not written are free values (log 7); an illegal word's effect is log 8. -/
def Obligations.DisplayCommandsSetTheirPlans : Prop :=
  ∀ s : State,
    exec .dinit s = .next { s with plan := txn s.cfg 0x00 s.cfg.initSeq, upc := 0 } ∧
    (∀ column page, exec (.cursor column page) s = .next { s with
      plan := txn s.cfg 0x00 [s.cfg.colLoOp ||| (column &&& 0x0F), s.cfg.colHiOp ||| (column >>> 4),
        s.cfg.pageOp ||| page.setWidth 8]
      upc := 0 }) ∧
    (∀ count, exec (.clear count) s = .next { s with
      plan := uops (.cursor 0 0) s ++ txn s.cfg 0x40 ((List.range count.toNat).map fun _ => 0x00), upc := 0 }) ∧
    (∀ ptr len, ptr.toNat + len.toNat ≤ 4096 → exec (.stream ptr len) s = .next { s with
      plan := txn s.cfg 0x40 ((List.range len.toNat).map fun k => s.srcByte (ptr.toNat + k)), upc := 0 }) ∧
    (∀ ptr len, 4096 < ptr.toNat + len.toNat → exec (.stream ptr len) s = .next { s with ill := true })

/-- 30_encoding.md R54: the operands are fields of the word; the three bytes are the opcodes with the low nibble, the high
nibble and the page in their low bits, so that "`|` here equals `+`", and they are sent in that order. -/
def Obligations.CursorBytes : Prop :=
  ∀ (s : State) (w : CmdWord) (column : Byte) (page : BitVec 3), decodeWord w = .ok (.cursor column page) →
    column = (yOf w).extractLsb' 0 8 ∧ page = (xOf w).extractLsb' 0 3 ∧
    ∃ lo hi pg : Byte, uops (.cursor column page) s = txn s.cfg 0x00 [lo, hi, pg] ∧
      lo = s.cfg.colLoOp ||| (column &&& 0x0F) ∧ hi = s.cfg.colHiOp ||| (column >>> 4) ∧
      pg = s.cfg.pageOp ||| page.setWidth 8 ∧
      lo.toNat = s.cfg.colLoOp.toNat + column.toNat % 16 ∧ hi.toNat = s.cfg.colHiOp.toNat + column.toNat / 16 ∧
      pg.toNat = s.cfg.pageOp.toNat + page.toNat

/-- 42_display.md R105, R106, 43_renderer.md R114, R120: a command that frames itself begins with a START to `ADDR_W`, ends
with a STOP, samples nothing, and run from any state with any environment leaves both lines released, the bus idle unless the
environment pulls a line, and `RXD` unchanged. Turns are the
model's (log 1). -/
def Obligations.FramedCommandsLeaveAnIdleBus : Prop :=
  ∀ (i : Instr) (s : State) (turns : List Turn),
    (i = .dinit ∨ (∃ c g, i = .cursor c g) ∨ (∃ n, i = .clear n) ∨ (∃ a n, i = .stream a n) ∨ (∃ a, i = .rstr a) ∨
      i = .rframe) →
    (∃ mid, uops i s = uops (.start s.cfg.addrW) s ++ mid ++ uops .stop s) ∧ Uop.sdaSample ∉ uops i s ∧
    (s.Ready (uops i s) turns → ∃ t, runSteps turns.length s = .next t ∧ t.plan = [] ∧ t.drvSda = false ∧
      t.drvScl = false ∧ t.levelSda = !t.envSdaLow ∧ t.levelScl = !t.envSclLow ∧
      (t.envSdaLow = false → t.envSclLow = false → t.busIdle = true) ∧ t.rxd = s.rxd ∧ s.RunFrame t)

/-- 42_display.md R100: from an idle bus, with nobody acknowledging, a transaction's plan is read as a START condition, the
frames `ADDR_W`, the mode byte and the bytes in order, and a STOP condition, and nothing else. With no turns listed the sequencer moves (log 1); how
rises are grouped is log 19. -/
def Obligations.TransactionIsReadByTheObserver : Prop :=
  ∀ (s : State) (m : Byte) (bs : List Byte), s.Quiet → s.drvSda = false → s.drvScl = false →
    s.plan = txn s.cfg m bs → s.upc = 0 →
    ∃ t, runSteps s.plan.length s = .next t ∧ t.plan = [] ∧ t.busIdle = true ∧
      readSince s t = [Item.start, Item.byte s.cfg.addrW true, Item.byte m true] ++ bs.map (fun b => Item.byte b true)
        ++ [Item.stop]

/-! ## The Glyph Renderer -/

/-- 43_renderer.md R112, R119, R120: on every state RCHAR, RDIGIT and RFRAME set these plans when their operands are legal
and only `ILL` when not. `FB` entries the host has not written are free values (log 6); an illegal
word's effect is log 8. -/
def Obligations.GlyphCommandsSetTheirPlans : Prop :=
  ∀ s : State,
    (∀ v : Byte, 32 ≤ v.toNat → v.toNat - 32 < s.cfg.n5 → exec (.rchar v) s = .next { s with
      plan := (glyph5 s.cfg v).flatMap fun b => uops (.write b) s, upc := 0 }) ∧
    (∀ v : Byte, v.toNat < 32 ∨ s.cfg.n5 ≤ v.toNat - 32 → exec (.rchar v) s = .next { s with ill := true }) ∧
    (∀ v : Byte, v.toNat < s.cfg.n3 → exec (.rdigit v) s = .next { s with
      plan := (digit64 s.cfg v).flatMap fun b => uops (.write b) s, upc := 0 }) ∧
    (∀ v : Byte, s.cfg.n3 ≤ v.toNat → exec (.rdigit v) s = .next { s with ill := true }) ∧
    ((∀ k < 8, (s.fbEntry k).toNat < s.cfg.n3) → exec .rframe s = .next { s with
      plan := txn s.cfg 0x40 ((List.range 8).flatMap fun k => digit64 s.cfg (s.fbEntry k)), upc := 0 }) ∧
    ((∃ k < 8, s.cfg.n3 ≤ (s.fbEntry k).toNat) → exec .rframe s = .next { s with ill := true })

/-- 43_renderer.md R113, R114: with the first `TERM` at or after `ptr` at `ptr + k` inside `SRC` and every character before it
in the font, RSTR sets one data-mode transaction of the characters' glyphs in address order, the terminator left out. `SRC` bytes the host has not written are free values (log 7). -/
def Obligations.StringIsRenderedToItsTerminator : Prop :=
  ∀ (s : State) (ptr : BitVec 12) (k : Nat), ptr.toNat + k < 4096 → s.srcByte (ptr.toNat + k) = s.cfg.term →
    (∀ j < k, s.srcByte (ptr.toNat + j) ≠ s.cfg.term ∧ 32 ≤ (s.srcByte (ptr.toNat + j)).toNat ∧
      (s.srcByte (ptr.toNat + j)).toNat - 32 < s.cfg.n5) →
    exec (.rstr ptr) s = .next { s with
      plan := txn s.cfg 0x40 ((List.range k).flatMap fun j => glyph5 s.cfg (s.srcByte (ptr.toNat + j))), upc := 0 }

/-- 30_encoding.md section 5, 43_renderer.md R114: a string that meets no terminator inside `SRC`, or a character outside the
font before it, makes RSTR illegal: only `ILL` changes.
That the model takes this effect and not the alternative of refusing the program is log 8. -/
def Obligations.UnrenderableStringIsIllegal : Prop :=
  ∀ (s : State) (ptr : BitVec 12),
    ((∀ k, ptr.toNat + k < 4096 → s.srcByte (ptr.toNat + k) ≠ s.cfg.term) ∨
      ∃ j, ptr.toNat + j < 4096 ∧ (∀ k ≤ j, s.srcByte (ptr.toNat + k) ≠ s.cfg.term) ∧
        ((s.srcByte (ptr.toNat + j)).toNat < 32 ∨ s.cfg.n5 ≤ (s.srcByte (ptr.toNat + j)).toNat - 32)) →
    exec (.rstr ptr) s = .next { s with ill := true }

/-- 43_renderer.md R111: `glyph5(c)` is the zero spacer and then the five bytes of `FONT5` from `(c - 32) * 5` on, all of
which lie inside the table. -/
def Obligations.GlyphIsSpacerAndFiveBytes : Prop :=
  ∀ (p : Params) (c : Byte), 32 ≤ c.toNat → c.toNat < 32 + p.n5 →
    p.font5.length = 5 * p.n5 ∧ (glyph5 p c).length = 6 ∧ (glyph5 p c)[0]? = some 0x00 ∧
      ∀ j < 5, (c.toNat - 32) * 5 + j < p.font5.length ∧ (glyph5 p c)[j + 1]? = p.font5[(c.toNat - 32) * 5 + j]?

/-- 43_renderer.md R117: `digit64(v)` is eight zero bytes and the quads of the three bytes at `3 * v`, which lie inside the
table, repeated whole 4, 6 and 4 times: 64 bytes. -/
def Obligations.DigitIsSpacerAndStretchedColumns : Prop :=
  ∀ (p : Params) (v : Byte), v.toNat < p.n3 →
    p.font3.length = 3 * p.n3 ∧ (digit64 p v).length = 64 ∧
    ∃ s0 s1 s2 : Byte, p.font3[3 * v.toNat + 0]? = some s0 ∧ p.font3[3 * v.toNat + 1]? = some s1 ∧
      p.font3[3 * v.toNat + 2]? = some s2 ∧
      digit64 p v = (List.range 8).map (fun _ => (0x00 : Byte)) ++ ((List.range 4).flatMap fun _ => quad s0)
        ++ ((List.range 6).flatMap fun _ => quad s1) ++ ((List.range 4).flatMap fun _ => quad s2)

/-- 30_encoding.md R55, R56: the table offsets, with the worked ones, and the bit pairs of a byte, pair 0 used first. -/
def Obligations.OffsetsAndBitPairs : Prop :=
  (∀ c : Byte, 32 ≤ c.toNat → off5 c = (c.toNat - 32) * 5) ∧ (∀ v : Byte, off3 v = 3 * v.toNat) ∧
  off5 65 = 165 ∧ off5 33 = 5 ∧ off5 32 = 0 ∧ off3 0 = 0 ∧ off3 15 = 45 ∧
  (∀ (s : Byte) (k : Nat), k < 4 → pair s k = (s >>> (2 * k)).extractLsb' 0 2 ∧ pair s k = s.extractLsb' (2 * k) 2) ∧
  (∀ s : Byte, quad s = [stretch (pair s 0), stretch (pair s 1), stretch (pair s 2), stretch (pair s 3)])

/-- 43_renderer.md R115: the table of `stretch`, that the software form of three shifts computes it, and that a whole byte
counts by its bits 1:0 only. -/
def Obligations.StretchTable : Prop :=
  stretch 0 = 0x00 ∧ stretch 1 = 0x0F ∧ stretch 2 = 0xF0 ∧ stretch 3 = 0xFF ∧
  (∀ p : BitVec 2,
    let b : Byte := p.setWidth 8
    let t0 := ((b &&& 2) <<< 3) ||| (b &&& 1)
    let t1 := t0 ||| (t0 <<< 1)
    t1 ||| (t1 <<< 2) = stretch p) ∧
  (∀ b : Byte, stretch (pair b 0) = stretch (b.setWidth 2))

/-- 43_renderer.md R116: `quad(s)` is the stretched bit pairs lowest first, so bit `i` of `s` becomes bits `4i` to `4i + 3` of
the 32-bit column whose lowest byte is `quad(s)[0]`. -/
def Obligations.QuadStretchesEveryBitFourfold : Prop :=
  (∀ s : Byte, ∃ q0 q1 q2 q3 : Byte, quad s = [q0, q1, q2, q3] ∧
    q0 = stretch (s.extractLsb' 0 2) ∧ q1 = stretch (s.extractLsb' 2 2) ∧ q2 = stretch (s.extractLsb' 4 2) ∧
    q3 = stretch (s.extractLsb' 6 2) ∧
    ∀ i < 8, ∀ j < 4, (q3 ++ q2 ++ q1 ++ q0).getLsbD (4 * i + j) = s.getLsbD i) ∧
  quad 0x7F = [0xFF, 0xFF, 0xFF, 0x0F] ∧ quad 0x41 = [0x0F, 0x00, 0x00, 0x0F] ∧ quad 0x00 = [0x00, 0x00, 0x00, 0x00] ∧
  quad 0xE4 = [0x00, 0x0F, 0xF0, 0xFF]

/-- 43_renderer.md R118: the documented glyph of digit value 0, and what it renders to, for every parameter record. -/
def Obligations.DigitZeroIsTheDocumentedGlyph : Prop :=
  ∀ p : Params, p.font3.take 3 = [0x7F, 0x41, 0x7F] ∧
    digit64 p 0 = List.replicate 8 0x00 ++ (List.replicate 4 [0xFF, 0xFF, 0xFF, 0x0F]).flatten
      ++ (List.replicate 6 [0x0F, 0x00, 0x00, 0x0F]).flatten ++ (List.replicate 4 [0xFF, 0xFF, 0xFF, 0x0F]).flatten

/-- 43_renderer.md R121, 30_encoding.md R65: RSTR and RFRAME have the plans of the same glyphs framed by hand: OPEN_DATA, one
RCHAR or RDIGIT after another, CLOSE. -/
def Obligations.FramedGlyphsEqualTheSameByHand : Prop :=
  (∀ (s : State) (ptr : BitVec 12) (chars : List Byte), s.stringAt ptr.toNat = some chars →
    uops (.rstr ptr) s = uops (.start s.cfg.addrW) s ++ uops (.write 0x40) s
      ++ (chars.flatMap fun c => uops (.rchar c) s) ++ uops .stop s) ∧
  (∀ s : State, uops .rframe s = uops (.start s.cfg.addrW) s ++ uops (.write 0x40) s
      ++ ((List.range 8).flatMap fun k => uops (.rdigit (s.fbEntry k)) s) ++ uops .stop s)

/-- 00_scope.md R5 and 43_renderer.md R123: every parameter record keeps the limits R5 sets: opcodes with zero low bits, at
least 16 digits, sentinels inside the table. They hold by the shape of the record (log 3). -/
def Obligations.ParametersKeepTheirLimits : Prop :=
  ∀ p : Params, p.colLoOp &&& 0x0F = 0 ∧ p.colHiOp &&& 0x0F = 0 ∧ p.pageOp &&& 0x07 = 0 ∧ 16 ≤ p.n3 ∧
    p.blankVal.toNat < p.n3 ∧ p.colonVal.toNat < p.n3 ∧ p.font5.length = 5 * p.n5 ∧ p.font3.length = 3 * p.n3

/-! ## The host's registers -/

/-- 10_state.md R16: `STAT` is `BUSY` in bit 0 and `ILL` in bit 1, zeros above; `BUSY` is that there is a plan; a host write to
it is ignored. That the write does not wait while busy is the
model's reading (log 26), and the turn and the access that are used up are its own (log 1). -/
def Obligations.StatusRegister : Prop :=
  ∀ s : State, s.stat.getLsbD 0 = decide (s.plan ≠ []) ∧ s.stat.getLsbD 1 = s.ill ∧
    (∀ j, 2 ≤ j → s.stat.getLsbD j = false) ∧
    (∀ v rest, s.nextTurn = .host → s.host = .write8 0x0001 v :: rest →
      step s = .next { s with sched := s.sched.tail, host := rest })

/-- 10_state.md R21, R27: a read of a mapped register completes at once, busy or not, returns what the map says and changes no
state of the block. The model records what was read (log 24); unwritten `RXD`, `FB` and `SRC` are free values and not
refused (log 5, 6, 7). -/
def Obligations.HostReadsReturnTheRegisterMap : Prop :=
  ∀ (s : State) (n : Nat) (rest : List HostAction), s.nextTurn = .host → s.host = .read n :: rest →
    let got := fun v : BitVec 32 =>
      step s = .next { s with sched := s.sched.tail, host := rest, hostLog := s.hostLog ++ [{ reg := n, value := v }] }
    (n = 0x0000 → got 0) ∧ (n = 0x0001 → got (s.stat.setWidth 32)) ∧ (n = 0x0002 → got (s.rxd.setWidth 32)) ∧
    (n = 0x0003 → got ((if s.drvSda then 1 else 0) + (if s.drvScl then 2 else 0))) ∧ (n = 0x0004 → got 0) ∧
    (n = 0x0005 → got (if s.levelSda then 1 else 0)) ∧
    (∀ k < 8, n = 0x0010 + k → got ((s.fbEntry k).setWidth 32)) ∧
    (∀ p < 4096, n = 0x1000 + p → got ((s.srcByte p).setWidth 32))

/-- 10_state.md R27: while `BUSY = 1` a write to `CMD`, `FB` or `SRC` has not happened yet: the host's turn changes nothing and
the access stays the host's next. The turn that finds the host waiting is the model's (log 15). -/
def Obligations.HostWritesWaitWhileBusy : Prop :=
  ∀ (s : State) (rest : List HostAction), s.nextTurn = .host → s.plan ≠ [] →
    ((∃ w, s.host = .issue w :: rest) ∨ (∃ k v, k < 8 ∧ s.host = .write8 (0x0010 + k) v :: rest) ∨
      (∃ p v, p < 4096 ∧ s.host = .write8 (0x1000 + p) v :: rest)) →
    step s = .next { s with sched := s.sched.tail }

/-- 10_state.md R18, R19, R21 and 20_memory.md R48: on an idle block a write to `FB[k]` or `SRC[p]` completes; the entry then
reads as the byte, every other entry of both memories as before, and nothing else changes.
Turns are the model's (log 1). -/
def Obligations.HostWriteReachesItsByteOnly : Prop :=
  (∀ (s : State) (k : Nat) (v : Byte) (rest : List HostAction), k < 8 → s.nextTurn = .host → s.plan = [] →
    s.host = .write8 (0x0010 + k) v :: rest →
    ∃ t, step s = .next t ∧ t.fbEntry k = v ∧ (∀ j, j ≠ k → t.fbEntry j = s.fbEntry j) ∧
      t = { s with sched := s.sched.tail, host := rest, fb := t.fb }) ∧
  (∀ (s : State) (p : Nat) (v : Byte) (rest : List HostAction), p < 4096 → s.nextTurn = .host → s.plan = [] →
    s.host = .write8 (0x1000 + p) v :: rest →
    ∃ t, step s = .next t ∧ t.srcByte p = v ∧ (∀ a, a ≠ p → t.srcByte a = s.srcByte a) ∧
      t = { s with sched := s.sched.tail, host := rest, src := t.src })

/-- 10_state.md R21: writes to `STAT`, `RXD`, `DIR`, `OUT` and `PIN` are ignored, busy or not: the access is used up and nothing
changes. That they do not wait is the model's reading (log 26). -/
def Obligations.WritesToReadOnlyRegistersAreIgnored : Prop :=
  ∀ (s : State) (n : Nat) (v : Byte) (rest : List HostAction), 1 ≤ n → n ≤ 5 → s.nextTurn = .host →
    s.host = .write8 n v :: rest → step s = .next { s with sched := s.sched.tail, host := rest }

/-- 10_state.md R21, 93_implementation_defined.md U9: the numbers outside the map are exactly these, and the model refuses an
access to one. The refusal is the spec's advice (log 14). -/
def Obligations.UnmappedRegistersAreRefused : Prop :=
  ∀ (s : State) (n : Nat) (rest : List HostAction),
    (regOf n = none ↔ (5 < n ∧ n < 0x0010) ∨ (0x0017 < n ∧ n < 0x1000) ∨ 0x1FFF < n) ∧
    (regOf n = none → s.nextTurn = .host →
      (s.host = .read n :: rest → step s = .refused (.unmappedRegister n)) ∧
      (∀ v, s.host = .write8 n v :: rest → step s = .refused (.unmappedRegister n)))

/-! ## Rules of the whole machine -/

/-- 10_state.md R25: `ILL` is set by the arrival of an illegal command word and by nothing else, and only reset clears it. (Turns: log 1; illegal words: log 8.) -/
def Obligations.IllIsStickyAndSetByIllegalWordsOnly : Prop :=
  ∀ s t : State, step s = .next t →
    (s.ill = true → t.ill = false → s.nextTurn = .reset) ∧
    (s.ill = false → t.ill = true → s.nextTurn = .host ∧ s.plan = [] ∧
      ∃ w rest, s.host = .issue w :: rest ∧ IllegalWord w s)

/-- 10_state.md R13: only SDA_SAMPLE writes `RXD`; reset leaves it without a value. After a reset `RXD` is a
free value (log 5). -/
def Obligations.OnlySamplesChangeRxd : Prop :=
  ∀ s t : State, step s = .next t → t.rxd ≠ s.rxd →
    s.nextTurn = .reset ∨ (s.nextTurn = .sequencer ∧ s.plan[s.upc]? = some .sdaSample)

/-- 10_state.md R10: only micro-operations write the drive bits; reset puts them at `RESET_DRV`. -/
def Obligations.OnlyMicroOpsChangeTheDriveBits : Prop :=
  ∀ s t : State, step s = .next t → (t.drvSda ≠ s.drvSda ∨ t.drvScl ≠ s.drvScl) →
    s.nextTurn = .reset ∨ (s.nextTurn = .sequencer ∧ ∃ u, s.plan[s.upc]? = some u ∧ u ≠ .sdaSample)

/-- 10_state.md R14, R18, R19, R27, 20_memory.md R48: while a command is in progress nothing but reset changes `FB`, `SRC` or
the plan, except that the plan's last micro-operation empties it; and only a host write to a register of `FB` or of `SRC`
ever changes that memory. -/
def Obligations.MemoriesStayWhileAPlanRuns : Prop :=
  ∀ s t : State, step s = .next t → s.nextTurn ≠ .reset →
    (s.plan ≠ [] → t.fb = s.fb ∧ t.src = s.src ∧ (t.plan = s.plan ∨ (t.plan = [] ∧ s.upc + 1 = s.plan.length))) ∧
    (t.fb ≠ s.fb → s.nextTurn = .host ∧ ∃ k v rest, k < 8 ∧ s.host = .write8 (0x0010 + k) v :: rest) ∧
    (t.src ≠ s.src → s.nextTurn = .host ∧ ∃ p v rest, p < 4096 ∧ s.host = .write8 (0x1000 + p) v :: rest)

/-- 10_state.md R20, 00_scope.md R5: no step and no reset changes a parameter or a font table. The parameters are a field of the state (log 2). -/
def Obligations.ConfigurationNeverChanges : Prop :=
  ∀ s t : State, step s = .next t → t.cfg = s.cfg

/-! ## Reset -/

/-- 10_state.md R23: the state after reset, as far as the spec gives it: the sequencer idle, `ILL` 0, the drive bits at the
open parameter, nothing written in either memory. `RXD` and what unwritten bytes read as are free values the statement says nothing of (log 5, 6,
7); the parameters are any record (log 2, 4). -/
def Obligations.ResetStateIsAsGiven : Prop :=
  State.reset.plan = [] ∧ State.reset.upc = 0 ∧ State.reset.ill = false ∧ State.reset.busy = false ∧
  State.reset.drvSda = State.reset.cfg.resetDrvSda ∧ State.reset.drvScl = State.reset.cfg.resetDrvScl ∧
  State.reset.out = 0 ∧ State.reset.stat = 0 ∧ (∀ a, Memory.read State.reset.fb a = none) ∧
  (∀ a, Memory.read State.reset.src a = none)

/-- 70_reset_and_hazards.md R150: reset at any moment, a command in progress included, puts the block into the state of
10_state.md R23, leaves the parameters alone, and abandons the plan where it stands. That reset is a turn, and what it
leaves of the host and the environment, is the model's (log 20). -/
def Obligations.ResetStrikesAtAnyMoment : Prop :=
  ∀ s : State, s.nextTurn = .reset →
    ∃ t, step s = .next t ∧ t.plan = [] ∧ t.upc = 0 ∧ t.ill = false ∧ t.drvSda = s.cfg.resetDrvSda ∧
      t.drvScl = s.cfg.resetDrvScl ∧ (∀ a, Memory.read t.fb a = none) ∧ (∀ a, Memory.read t.src a = none) ∧
      t.cfg = s.cfg ∧ t.envSdaLow = s.envSdaLow ∧ t.envSclLow = s.envSclLow ∧ t.host = s.host ∧
      t.sched = s.sched.tail

/-- The invariant holds after reset. It says the model's own records are in order too (log 12). -/
def Obligations.InvariantHoldsAtReset : Prop := State.reset.Inv

/-- 10_state.md R15 and the canonical form of the memories: every step keeps the invariant. The invariant is the model's
(`State.Inv`): R15's relation, the memories' form, and the waveform's last pair (log 12). -/
def Obligations.EveryStepKeepsTheInvariant : Prop :=
  ∀ s t : State, s.Inv → step s = .next t → t.Inv

/-- 60_exceptions.md R130, R135: from a state that keeps the invariant no step faults, and a step is refused only for a host
access to a number that names no register, or for a byte write to `CMD`. The fault and the refusals are the model's (log 13, log 14). -/
def Obligations.NothingFaultsAndOnlyBadAccessesAreRefused : Prop :=
  ∀ s : State, s.Inv → (∀ f, step s ≠ .fault f) ∧
    (∀ r, step s = .refused r → s.nextTurn = .host ∧ ∃ n rest,
      (regOf n = none ∧ (s.host = .read n :: rest ∨ ∃ v, s.host = .write8 n v :: rest)) ∨
      (n = 0x0000 ∧ ∃ v, s.host = .write8 n v :: rest))
end

