-- ==== Sys2Proof/Laws/Decode.lean ====
section
/-! SUPPORT. The fields of a packed command word, and a word as its fields. -/

namespace Sys2Proof

theorem opOf_pack (op : Byte) (x y : BitVec 12) : opOf (pack op x y) = op := by
  apply BitVec.eq_of_getLsbD_eq
  intro i hi
  simp only [opOf, pack, BitVec.getLsbD_extractLsb', hi, decide_true, Bool.true_and, BitVec.getLsbD_append]
  simp [show ¬ (24 + i < 12) by omega, show ¬ (24 + i - 12 < 12) by omega, show 24 + i - 12 - 12 = i by omega]

theorem xOf_pack (op : Byte) (x y : BitVec 12) : xOf (pack op x y) = x := by
  apply BitVec.eq_of_getLsbD_eq
  intro i hi
  simp only [xOf, pack, BitVec.getLsbD_extractLsb', hi, decide_true, Bool.true_and, BitVec.getLsbD_append]
  simp [show ¬ (12 + i < 12) by omega, hi]

theorem yOf_pack (op : Byte) (x y : BitVec 12) : yOf (pack op x y) = y := by
  apply BitVec.eq_of_getLsbD_eq
  intro i hi
  simp only [yOf, pack, BitVec.getLsbD_extractLsb', hi, decide_true, Bool.true_and, BitVec.getLsbD_append]
  simp [hi]

/-- A word is its three fields. -/
theorem pack_fields (w : CmdWord) : pack (opOf w) (xOf w) (yOf w) = w := by
  apply BitVec.eq_of_getLsbD_eq
  intro i hi
  simp only [pack, opOf, xOf, yOf, BitVec.getLsbD_append, BitVec.getLsbD_extractLsb']
  by_cases h1 : i < 12
  · simp [h1]
  · by_cases h2 : i - 12 < 12
    · simp [h1, h2, show 12 + (i - 12) = i by omega]
    · simp [h1, h2, show i - 12 - 12 < 8 by omega, show 24 + (i - 12 - 12) = i by omega]

theorem uopOfCode_code (u : Uop) : uopOfCode u.code = some u := by cases u <;> rfl

theorem toUop_toInstr (u : Uop) : u.toInstr.toUop = some u := by cases u <;> rfl

theorem toInstr_of_toUop (i : Instr) (u : Uop) (h : i.toUop = some u) : u.toInstr = i := by
  cases i <;> simp [Instr.toUop] at h <;> subst h <;> rfl

theorem toInstr_not_command (u : Uop) : u.toInstr.isCommand = false := by cases u <;> rfl

end Sys2Proof
end

