-- ==== Sys2Proof/Laws/Memory.lean ====
section
/-! SUPPORT. The laws of a byte memory: a read after a write, and that a write keeps the canonical form. -/

namespace Sys2Proof.Machine.Memory

theorem read_write_same (m : Memory) (a : Nat) (v : Byte) : read (write m a v) a = some v := by
  induction m with
  | nil => simp [write, read]
  | cons c rest ih =>
    simp only [write]
    split
    · simp [read]
    · split
      · simp [read]
      · have : c.1 ≠ a := by omega
        simp [read, this, ih]

theorem read_write_other (m : Memory) (a b : Nat) (v : Byte) (h : b ≠ a) : read (write m a v) b = read m b := by
  induction m with
  | nil => simp [write, read, Ne.symm h]
  | cons c rest ih =>
    simp only [write]
    split
    · simp [read, Ne.symm h]
    · split
      · rename_i h1 h2
        have : c.1 ≠ b := by omega
        simp [read, Ne.symm h, this]
      · simp only [read]
        split
        · rfl
        · exact ih

/-- Every address of a sorted memory from its head on is at least the head's. -/
theorem sorted_cons (c : Host.Cell) (m : Memory) :
    sorted (c :: m) = true ↔ sorted m = true ∧ ∀ d ∈ m.head?, c.1 < d.1 := by
  cases m with
  | nil => simp [sorted]
  | cons d rest => simp [sorted, and_comm]

theorem head_write (m : Memory) (a : Nat) (v : Byte) (d : Host.Cell) (h : d ∈ (write m a v).head?) :
    d.1 = a ∨ d ∈ m.head? := by
  cases m with
  | nil => simp [write] at h; simp [← h]
  | cons c rest =>
    simp only [write] at h
    split at h
    · simp at h; simp [← h]
    · split at h
      · simp at h; simp [← h]
      · simp at h; simp [← h]

theorem sorted_write (m : Memory) (a : Nat) (v : Byte) (h : sorted m = true) : sorted (write m a v) = true := by
  induction m with
  | nil => simp [write, sorted]
  | cons c rest ih =>
    have hc := (sorted_cons c rest).1 h
    simp only [write]
    split
    · rw [sorted_cons]; exact ⟨h, by simp; assumption⟩
    · split
      · rename_i h1 h2
        rw [sorted_cons]; exact ⟨hc.1, by simpa [h2] using hc.2⟩
      · rename_i h1 h2
        rw [sorted_cons]
        refine ⟨ih hc.1, fun d hd => ?_⟩
        rcases head_write _ _ _ _ hd with he | hm
        · omega
        · exact hc.2 d hm

theorem mem_write (m : Memory) (a : Nat) (v : Byte) (d : Host.Cell) (h : d ∈ write m a v) : d.1 = a ∨ d ∈ m := by
  induction m with
  | nil => simp [write] at h; simp [h]
  | cons c rest ih =>
    simp only [write] at h
    split at h
    · rcases List.mem_cons.1 h with h | h
      · simp [h]
      · exact .inr h
    · split at h
      · rcases List.mem_cons.1 h with h | h
        · simp [h]
        · exact .inr (List.mem_cons_of_mem _ h)
      · rcases List.mem_cons.1 h with h | h
        · simp [h]
        · rcases ih h with h | h
          · exact .inl h
          · exact .inr (List.mem_cons_of_mem _ h)

/-- A write inside the memory keeps its canonical form. -/
theorem wf_write (size : Nat) (m : Memory) (a : Nat) (v : Byte) (ha : a < size) (h : wf size m = true) :
    wf size (write m a v) = true := by
  simp only [wf, Bool.and_eq_true, List.all_eq_true, decide_eq_true_eq] at h ⊢
  refine ⟨sorted_write m a v h.1, fun d hd => ?_⟩
  rcases mem_write m a v d hd with he | hm
  · omega
  · exact h.2 d hm

theorem wf_nil (size : Nat) : wf size [] = true := rfl

end Sys2Proof.Machine.Memory
end

