-- ==== Sys2Proof/Laws/Observer.lean ====
section
/-! SUPPORT. The observer's small laws: what two pairs show, that a waveform can be read in parts, and what the reader does
with the events of one clock pulse. -/

namespace Sys2Proof.Machine

/-- Pairs that do not differ show nothing. -/
@[simp] theorem eventOf_same (both : SimultaneousReading) (p : Levels) : eventOf both p p = none := by
  obtain ⟨d, c⟩ := p
  cases c <;> simp [eventOf]

/-- Where both lines change, what is seen is the reading. -/
theorem eventOf_both (both : SimultaneousReading) (p q : Levels) (hd : p.sda ≠ q.sda) (hc : p.scl ≠ q.scl) :
    eventOf both p q = readingEvent both := by
  obtain ⟨d, c⟩ := p
  obtain ⟨e, f⟩ := q
  cases c <;> cases f <;> simp_all [eventOf]

/-- Where at most one line changes, the reading of a simultaneous change does not matter. -/
theorem eventOf_one (r r' : SimultaneousReading) (p q : Levels) (h : p.sda = q.sda ∨ p.scl = q.scl) :
    eventOf r p q = eventOf r' p q := by
  obtain ⟨d, c⟩ := p
  obtain ⟨e, f⟩ := q
  cases c <;> cases f <;> simp_all [eventOf]

@[simp] theorem eventsFrom_nil (both : Nat → SimultaneousReading) (n : Nat) (p : Levels) : eventsFrom both n p [] = [] := rfl

@[simp] theorem eventsFrom_cons (both : Nat → SimultaneousReading) (n : Nat) (p q : Levels) (w : List Levels) :
    eventsFrom both n p (q :: w) = (eventOf (both n) p q).toList ++ eventsFrom both (n + 1) q w := rfl

/-- A waveform is read in two parts, the second from the last pair of the first. -/
theorem eventsFrom_append (both : Nat → SimultaneousReading) (n : Nat) (p : Levels) (v w : List Levels) :
    eventsFrom both n p (v ++ w) = eventsFrom both n p v ++ eventsFrom both (n + v.length) (v.getLastD p) w := by
  induction v generalizing n p with
  | nil => rfl
  | cons q v ih => simp [ih, Nat.add_assoc, Nat.add_comm 1, List.getLast?_cons]

@[simp] theorem run_nil (r : Reader) : r.run [] = (r, []) := rfl

@[simp] theorem run_cons (r : Reader) (e : Event) (es : List Event) :
    r.run (e :: es) = (((r.on e).1.run es).1, (r.on e).2 ++ ((r.on e).1.run es).2) := rfl

/-- The reader reads a list of events in two parts. -/
theorem run_append (r : Reader) (es fs : List Event) :
    r.run (es ++ fs) = (((r.run es).1.run fs).1, (r.run es).2 ++ ((r.run es).1.run fs).2) := by
  induction es generalizing r with
  | nil => rfl
  | cons e es ih => simp [ih]

/-- In a transaction a rise and the fall after it are one bit. -/
theorem run_pulse (r : Reader) (b : Bool) (ht : r.inTxn = true) (hh : r.held = []) :
    r.run [.rise b, .fall] = r.addBit b := by
  obtain ⟨t, bits, held⟩ := r
  subst ht hh
  simp [Reader.on, Reader.addBits]

end Sys2Proof.Machine
end

