-- ==== Sys2Proof/Laws/PerInstr.lean ====
section
/-! SUPPORT. Statements about every instruction as syntax, one lemma per constructor: an instruction's encoding matches the
match and mask of its row of spec/opcode_table.json. -/

namespace Sys2Proof.Laws.TableRow

/-- The mask keeps a field whole or drops it, field by field. -/
theorem pack_and (a b : Byte) (x y u v : BitVec 12) : pack a x y &&& pack b u v = pack (a &&& b) (x &&& u) (y &&& v) := by
  apply BitVec.eq_of_getLsbD_eq
  intro i hi
  simp only [pack, BitVec.getLsbD_and, BitVec.getLsbD_append]
  split <;> [rfl; (split <;> rfl)]

theorem low8_mask (v : Byte) : (0#4 ++ v) &&& 0xF00#12 = 0#12 := by revert v; decide

theorem low1_mask (f : Bool) : (0#11 ++ BitVec.ofBool f) &&& 0xFFE#12 = 0#12 := by cases f <;> decide

theorem low3_mask (g : BitVec 3) : (0#9 ++ g) &&& 0xFF8#12 = 0#12 := by revert g; decide

/-- An instruction encoded as a word matches its row of the opcode table. -/
def Statement (i : Instr) : Prop :=
  ∀ w, encode i = .word w → ∃ row ∈ opcodeTable, row.mnemonic = i.mnemonic ∧ w &&& row.mask = row.value

/-- A command of opcode `op` matches a row whose mask keeps the opcode and the reserved bits. -/
theorem of_row (i : Instr) (row : TableRow) (hr : row ∈ opcodeTable) (hm : row.mnemonic = i.mnemonic) (op : Byte)
    (x y mx my : BitVec 12) (he : encode i = .word (pack op x y)) (hk : row.mask = pack 0xFF mx my)
    (hv : row.value = pack op 0 0) (hx : x &&& mx = 0) (hy : y &&& my = 0) : Statement i := by
  intro w hw
  rw [he] at hw
  cases hw
  refine ⟨row, hr, hm, ?_⟩
  rw [hk, hv, pack_and, hx, hy]
  congr 1
  exact BitVec.and_allOnes

theorem init : Statement .init :=
  of_row _ ⟨"INIT", 0x00000000, 0xFFFFFFFF⟩ (by decide) rfl 0x00 0 0 0xFFF 0xFFF rfl (by decide) (by decide) (by decide) (by decide)

theorem start (v : Byte) : Statement (.start v) :=
  of_row _ ⟨"START", 0x01000000, 0xFFFFFF00⟩ (by decide) rfl 0x01 0 _ 0xFFF 0xF00 rfl (by decide) (by decide) (by decide) (low8_mask v)

theorem write (v : Byte) : Statement (.write v) :=
  of_row _ ⟨"WRITE", 0x02000000, 0xFFFFFF00⟩ (by decide) rfl 0x02 0 _ 0xFFF 0xF00 rfl (by decide) (by decide) (by decide) (low8_mask v)

theorem read (f : Bool) : Statement (.read f) :=
  of_row _ ⟨"READ", 0x03000000, 0xFFFFFFFE⟩ (by decide) rfl 0x03 0 _ 0xFFF 0xFFE rfl (by decide) (by decide) (by decide) (low1_mask f)

theorem stop : Statement .stop :=
  of_row _ ⟨"STOP", 0x04000000, 0xFFFFFFFF⟩ (by decide) rfl 0x04 0 0 0xFFF 0xFFF rfl (by decide) (by decide) (by decide) (by decide)

theorem dinit : Statement .dinit :=
  of_row _ ⟨"DINIT", 0x10000000, 0xFFFFFFFF⟩ (by decide) rfl 0x10 0 0 0xFFF 0xFFF rfl (by decide) (by decide) (by decide) (by decide)

theorem cursor (c : Byte) (g : BitVec 3) : Statement (.cursor c g) :=
  of_row _ ⟨"CURSOR", 0x11000000, 0xFFFF8F00⟩ (by decide) rfl 0x11 _ _ 0xFF8 0xF00 rfl (by decide) (by decide) (low3_mask g) (low8_mask c)

theorem clear (n : BitVec 12) : Statement (.clear n) :=
  of_row _ ⟨"CLEAR", 0x12000000, 0xFFFFF000⟩ (by decide) rfl 0x12 0 n 0xFFF 0 rfl (by decide) (by decide) (by decide) BitVec.and_zero

theorem stream (a n : BitVec 12) : Statement (.stream a n) :=
  of_row _ ⟨"STREAM", 0x13000000, 0xFF000000⟩ (by decide) rfl 0x13 a n 0 0 rfl (by decide) (by decide) BitVec.and_zero BitVec.and_zero

theorem rchar (v : Byte) : Statement (.rchar v) :=
  of_row _ ⟨"RCHAR", 0x20000000, 0xFFFFFF00⟩ (by decide) rfl 0x20 0 _ 0xFFF 0xF00 rfl (by decide) (by decide) (by decide) (low8_mask v)

theorem rstr (a : BitVec 12) : Statement (.rstr a) :=
  of_row _ ⟨"RSTR", 0x21000000, 0xFF000FFF⟩ (by decide) rfl 0x21 a 0 0 0xFFF rfl (by decide) (by decide) BitVec.and_zero (by decide)

theorem rdigit (v : Byte) : Statement (.rdigit v) :=
  of_row _ ⟨"RDIGIT", 0x22000000, 0xFFFFFF00⟩ (by decide) rfl 0x22 0 _ 0xFFF 0xF00 rfl (by decide) (by decide) (by decide) (low8_mask v)

theorem rframe : Statement .rframe :=
  of_row _ ⟨"RFRAME", 0x23000000, 0xFFFFFFFF⟩ (by decide) rfl 0x23 0 0 0xFFF 0xFFF rfl (by decide) (by decide) (by decide) (by decide)

theorem sdaLow : Statement .sdaLow := fun _ h => nomatch h

theorem sdaRel : Statement .sdaRel := fun _ h => nomatch h

theorem sclLow : Statement .sclLow := fun _ h => nomatch h

theorem sclRel : Statement .sclRel := fun _ h => nomatch h

theorem sdaSample : Statement .sdaSample := fun _ h => nomatch h

theorem bothRel : Statement .bothRel := fun _ h => nomatch h

end Sys2Proof.Laws.TableRow
end

