-- ==== Sys2Proof/Laws/State.lean ====
section
/-! SUPPORT. One lemma per field and update of State, all by rfl, so that no later proof unfolds a record update. -/

namespace Sys2Proof.Machine.State

/-! ## popTurn -/

@[simp] theorem popTurn_cfg (s : State) : s.popTurn.cfg = s.cfg := rfl
@[simp] theorem popTurn_drvSda (s : State) : s.popTurn.drvSda = s.drvSda := rfl
@[simp] theorem popTurn_drvScl (s : State) : s.popTurn.drvScl = s.drvScl := rfl
@[simp] theorem popTurn_rxd (s : State) : s.popTurn.rxd = s.rxd := rfl
@[simp] theorem popTurn_plan (s : State) : s.popTurn.plan = s.plan := rfl
@[simp] theorem popTurn_upc (s : State) : s.popTurn.upc = s.upc := rfl
@[simp] theorem popTurn_ill (s : State) : s.popTurn.ill = s.ill := rfl
@[simp] theorem popTurn_fb (s : State) : s.popTurn.fb = s.fb := rfl
@[simp] theorem popTurn_src (s : State) : s.popTurn.src = s.src := rfl
@[simp] theorem popTurn_envSdaLow (s : State) : s.popTurn.envSdaLow = s.envSdaLow := rfl
@[simp] theorem popTurn_envSclLow (s : State) : s.popTurn.envSclLow = s.envSclLow := rfl
@[simp] theorem popTurn_host (s : State) : s.popTurn.host = s.host := rfl
@[simp] theorem popTurn_sched (s : State) : s.popTurn.sched = s.sched.tail := rfl
@[simp] theorem popTurn_hostLog (s : State) : s.popTurn.hostLog = s.hostLog := rfl
@[simp] theorem popTurn_trace (s : State) : s.popTurn.trace = s.trace := rfl
@[simp] theorem popTurn_wave (s : State) : s.popTurn.wave = s.wave := rfl
@[simp] theorem popTurn_epoch (s : State) : s.popTurn.epoch = s.epoch := rfl
@[simp] theorem popTurn_draws (s : State) : s.popTurn.draws = s.draws := rfl

/-! ## setIll -/

@[simp] theorem setIll_cfg (s : State) : s.setIll.cfg = s.cfg := rfl
@[simp] theorem setIll_drvSda (s : State) : s.setIll.drvSda = s.drvSda := rfl
@[simp] theorem setIll_drvScl (s : State) : s.setIll.drvScl = s.drvScl := rfl
@[simp] theorem setIll_rxd (s : State) : s.setIll.rxd = s.rxd := rfl
@[simp] theorem setIll_plan (s : State) : s.setIll.plan = s.plan := rfl
@[simp] theorem setIll_upc (s : State) : s.setIll.upc = s.upc := rfl
@[simp] theorem setIll_ill (s : State) : s.setIll.ill = true := rfl
@[simp] theorem setIll_fb (s : State) : s.setIll.fb = s.fb := rfl
@[simp] theorem setIll_src (s : State) : s.setIll.src = s.src := rfl
@[simp] theorem setIll_envSdaLow (s : State) : s.setIll.envSdaLow = s.envSdaLow := rfl
@[simp] theorem setIll_envSclLow (s : State) : s.setIll.envSclLow = s.envSclLow := rfl
@[simp] theorem setIll_host (s : State) : s.setIll.host = s.host := rfl
@[simp] theorem setIll_sched (s : State) : s.setIll.sched = s.sched := rfl
@[simp] theorem setIll_hostLog (s : State) : s.setIll.hostLog = s.hostLog := rfl
@[simp] theorem setIll_trace (s : State) : s.setIll.trace = s.trace := rfl
@[simp] theorem setIll_wave (s : State) : s.setIll.wave = s.wave := rfl
@[simp] theorem setIll_epoch (s : State) : s.setIll.epoch = s.epoch := rfl
@[simp] theorem setIll_draws (s : State) : s.setIll.draws = s.draws := rfl

/-! ## record -/

@[simp] theorem record_cfg (s : State) (u : Uop) (l : List Levels) : (s.record u l).cfg = s.cfg := rfl
@[simp] theorem record_drvSda (s : State) (u : Uop) (l : List Levels) : (s.record u l).drvSda = s.drvSda := rfl
@[simp] theorem record_drvScl (s : State) (u : Uop) (l : List Levels) : (s.record u l).drvScl = s.drvScl := rfl
@[simp] theorem record_rxd (s : State) (u : Uop) (l : List Levels) : (s.record u l).rxd = s.rxd := rfl
@[simp] theorem record_plan (s : State) (u : Uop) (l : List Levels) : (s.record u l).plan = s.plan := rfl
@[simp] theorem record_upc (s : State) (u : Uop) (l : List Levels) : (s.record u l).upc = s.upc := rfl
@[simp] theorem record_ill (s : State) (u : Uop) (l : List Levels) : (s.record u l).ill = s.ill := rfl
@[simp] theorem record_fb (s : State) (u : Uop) (l : List Levels) : (s.record u l).fb = s.fb := rfl
@[simp] theorem record_src (s : State) (u : Uop) (l : List Levels) : (s.record u l).src = s.src := rfl
@[simp] theorem record_envSdaLow (s : State) (u : Uop) (l : List Levels) : (s.record u l).envSdaLow = s.envSdaLow := rfl
@[simp] theorem record_envSclLow (s : State) (u : Uop) (l : List Levels) : (s.record u l).envSclLow = s.envSclLow := rfl
@[simp] theorem record_host (s : State) (u : Uop) (l : List Levels) : (s.record u l).host = s.host := rfl
@[simp] theorem record_sched (s : State) (u : Uop) (l : List Levels) : (s.record u l).sched = s.sched := rfl
@[simp] theorem record_hostLog (s : State) (u : Uop) (l : List Levels) : (s.record u l).hostLog = s.hostLog := rfl
@[simp] theorem record_trace (s : State) (u : Uop) (l : List Levels) : (s.record u l).trace = s.trace ++ [u] := rfl
@[simp] theorem record_wave (s : State) (u : Uop) (l : List Levels) : (s.record u l).wave = s.wave ++ l ++ [s.levels] := rfl
@[simp] theorem record_epoch (s : State) (u : Uop) (l : List Levels) : (s.record u l).epoch = s.epoch := rfl
@[simp] theorem record_draws (s : State) (u : Uop) (l : List Levels) : (s.record u l).draws = s.draws := rfl

/-! ## setEnv -/

@[simp] theorem setEnv_cfg (s : State) (a b : Bool) : (s.setEnv a b).cfg = s.cfg := rfl
@[simp] theorem setEnv_drvSda (s : State) (a b : Bool) : (s.setEnv a b).drvSda = s.drvSda := rfl
@[simp] theorem setEnv_drvScl (s : State) (a b : Bool) : (s.setEnv a b).drvScl = s.drvScl := rfl
@[simp] theorem setEnv_rxd (s : State) (a b : Bool) : (s.setEnv a b).rxd = s.rxd := rfl
@[simp] theorem setEnv_plan (s : State) (a b : Bool) : (s.setEnv a b).plan = s.plan := rfl
@[simp] theorem setEnv_upc (s : State) (a b : Bool) : (s.setEnv a b).upc = s.upc := rfl
@[simp] theorem setEnv_ill (s : State) (a b : Bool) : (s.setEnv a b).ill = s.ill := rfl
@[simp] theorem setEnv_fb (s : State) (a b : Bool) : (s.setEnv a b).fb = s.fb := rfl
@[simp] theorem setEnv_src (s : State) (a b : Bool) : (s.setEnv a b).src = s.src := rfl
@[simp] theorem setEnv_envSdaLow (s : State) (a b : Bool) : (s.setEnv a b).envSdaLow = a := rfl
@[simp] theorem setEnv_envSclLow (s : State) (a b : Bool) : (s.setEnv a b).envSclLow = b := rfl
@[simp] theorem setEnv_host (s : State) (a b : Bool) : (s.setEnv a b).host = s.host := rfl
@[simp] theorem setEnv_sched (s : State) (a b : Bool) : (s.setEnv a b).sched = s.sched := rfl
@[simp] theorem setEnv_hostLog (s : State) (a b : Bool) : (s.setEnv a b).hostLog = s.hostLog := rfl
@[simp] theorem setEnv_trace (s : State) (a b : Bool) : (s.setEnv a b).trace = s.trace := rfl
@[simp] theorem setEnv_wave (s : State) (a b : Bool) : (s.setEnv a b).wave = s.wave ++ [Levels.of s.drvSda s.drvScl a b] := rfl
@[simp] theorem setEnv_epoch (s : State) (a b : Bool) : (s.setEnv a b).epoch = s.epoch := rfl
@[simp] theorem setEnv_draws (s : State) (a b : Bool) : (s.setEnv a b).draws = s.draws := rfl

/-! ## resetBlock -/

@[simp] theorem resetBlock_cfg (s : State) : s.resetBlock.cfg = s.cfg := rfl
@[simp] theorem resetBlock_drvSda (s : State) : s.resetBlock.drvSda = s.cfg.resetDrvSda := rfl
@[simp] theorem resetBlock_drvScl (s : State) : s.resetBlock.drvScl = s.cfg.resetDrvScl := rfl
@[simp] theorem resetBlock_rxd (s : State) : s.resetBlock.rxd = Config.unwrittenRxd (s.epoch + 1) := rfl
@[simp] theorem resetBlock_plan (s : State) : s.resetBlock.plan = [] := rfl
@[simp] theorem resetBlock_upc (s : State) : s.resetBlock.upc = 0 := rfl
@[simp] theorem resetBlock_ill (s : State) : s.resetBlock.ill = false := rfl
@[simp] theorem resetBlock_fb (s : State) : s.resetBlock.fb = [] := rfl
@[simp] theorem resetBlock_src (s : State) : s.resetBlock.src = [] := rfl
@[simp] theorem resetBlock_envSdaLow (s : State) : s.resetBlock.envSdaLow = s.envSdaLow := rfl
@[simp] theorem resetBlock_envSclLow (s : State) : s.resetBlock.envSclLow = s.envSclLow := rfl
@[simp] theorem resetBlock_host (s : State) : s.resetBlock.host = s.host := rfl
@[simp] theorem resetBlock_sched (s : State) : s.resetBlock.sched = s.sched := rfl
@[simp] theorem resetBlock_hostLog (s : State) : s.resetBlock.hostLog = s.hostLog := rfl
@[simp] theorem resetBlock_trace (s : State) : s.resetBlock.trace = [] := rfl
@[simp] theorem resetBlock_wave (s : State) : s.resetBlock.wave = [Levels.of s.cfg.resetDrvSda s.cfg.resetDrvScl s.envSdaLow s.envSclLow] := rfl
@[simp] theorem resetBlock_epoch (s : State) : s.resetBlock.epoch = s.epoch + 1 := rfl
@[simp] theorem resetBlock_draws (s : State) : s.resetBlock.draws = s.draws := rfl

/-! ## advance: `PLAN` and `UPC` alone -/

@[simp] theorem advance_cfg (s : State) : s.advance.cfg = s.cfg := by unfold advance; split <;> rfl
@[simp] theorem advance_drvSda (s : State) : s.advance.drvSda = s.drvSda := by unfold advance; split <;> rfl
@[simp] theorem advance_drvScl (s : State) : s.advance.drvScl = s.drvScl := by unfold advance; split <;> rfl
@[simp] theorem advance_rxd (s : State) : s.advance.rxd = s.rxd := by unfold advance; split <;> rfl
@[simp] theorem advance_ill (s : State) : s.advance.ill = s.ill := by unfold advance; split <;> rfl
@[simp] theorem advance_fb (s : State) : s.advance.fb = s.fb := by unfold advance; split <;> rfl
@[simp] theorem advance_src (s : State) : s.advance.src = s.src := by unfold advance; split <;> rfl
@[simp] theorem advance_envSdaLow (s : State) : s.advance.envSdaLow = s.envSdaLow := by unfold advance; split <;> rfl
@[simp] theorem advance_envSclLow (s : State) : s.advance.envSclLow = s.envSclLow := by unfold advance; split <;> rfl
@[simp] theorem advance_host (s : State) : s.advance.host = s.host := by unfold advance; split <;> rfl
@[simp] theorem advance_sched (s : State) : s.advance.sched = s.sched := by unfold advance; split <;> rfl
@[simp] theorem advance_hostLog (s : State) : s.advance.hostLog = s.hostLog := by unfold advance; split <;> rfl
@[simp] theorem advance_trace (s : State) : s.advance.trace = s.trace := by unfold advance; split <;> rfl
@[simp] theorem advance_wave (s : State) : s.advance.wave = s.wave := by unfold advance; split <;> rfl
@[simp] theorem advance_epoch (s : State) : s.advance.epoch = s.epoch := by unfold advance; split <;> rfl
@[simp] theorem advance_draws (s : State) : s.advance.draws = s.draws := by unfold advance; split <;> rfl

theorem advance_last (s : State) (h : s.upc + 1 = s.plan.length) : s.advance = { s with plan := [], upc := 0 } := by
  simp [advance, h]

theorem advance_more (s : State) (h : s.upc + 1 ≠ s.plan.length) : s.advance = { s with upc := s.upc + 1 } := by
  simp [advance, h]

/-! ## writeReg: `FB` and `SRC` alone -/

@[simp] theorem writeReg_cfg (s : State) (r : HostReg) (v : Byte) : (s.writeReg r v).cfg = s.cfg := by cases r <;> rfl
@[simp] theorem writeReg_drvSda (s : State) (r : HostReg) (v : Byte) : (s.writeReg r v).drvSda = s.drvSda := by cases r <;> rfl
@[simp] theorem writeReg_drvScl (s : State) (r : HostReg) (v : Byte) : (s.writeReg r v).drvScl = s.drvScl := by cases r <;> rfl
@[simp] theorem writeReg_rxd (s : State) (r : HostReg) (v : Byte) : (s.writeReg r v).rxd = s.rxd := by cases r <;> rfl
@[simp] theorem writeReg_plan (s : State) (r : HostReg) (v : Byte) : (s.writeReg r v).plan = s.plan := by cases r <;> rfl
@[simp] theorem writeReg_upc (s : State) (r : HostReg) (v : Byte) : (s.writeReg r v).upc = s.upc := by cases r <;> rfl
@[simp] theorem writeReg_ill (s : State) (r : HostReg) (v : Byte) : (s.writeReg r v).ill = s.ill := by cases r <;> rfl
@[simp] theorem writeReg_envSdaLow (s : State) (r : HostReg) (v : Byte) : (s.writeReg r v).envSdaLow = s.envSdaLow := by cases r <;> rfl
@[simp] theorem writeReg_envSclLow (s : State) (r : HostReg) (v : Byte) : (s.writeReg r v).envSclLow = s.envSclLow := by cases r <;> rfl
@[simp] theorem writeReg_host (s : State) (r : HostReg) (v : Byte) : (s.writeReg r v).host = s.host := by cases r <;> rfl
@[simp] theorem writeReg_sched (s : State) (r : HostReg) (v : Byte) : (s.writeReg r v).sched = s.sched := by cases r <;> rfl
@[simp] theorem writeReg_hostLog (s : State) (r : HostReg) (v : Byte) : (s.writeReg r v).hostLog = s.hostLog := by cases r <;> rfl
@[simp] theorem writeReg_trace (s : State) (r : HostReg) (v : Byte) : (s.writeReg r v).trace = s.trace := by cases r <;> rfl
@[simp] theorem writeReg_wave (s : State) (r : HostReg) (v : Byte) : (s.writeReg r v).wave = s.wave := by cases r <;> rfl
@[simp] theorem writeReg_epoch (s : State) (r : HostReg) (v : Byte) : (s.writeReg r v).epoch = s.epoch := by cases r <;> rfl
@[simp] theorem writeReg_draws (s : State) (r : HostReg) (v : Byte) : (s.writeReg r v).draws = s.draws := by cases r <;> rfl

/-! ## What the accessors read -/

theorem busy_iff (s : State) : s.busy = true ↔ s.plan ≠ [] := by simp [busy]

theorem not_busy_iff (s : State) : s.busy = false ↔ s.plan = [] := by simp [busy]

theorem levels_eq (s : State) : s.levels = { sda := s.levelSda, scl := s.levelScl } := rfl

/-- Byte reads of `SRC` read the parameters, the memory and the count of resets only. -/
theorem srcByte_congr (s t : State) (h : t.src = s.src) (he : t.epoch = s.epoch) (p : Nat) : t.srcByte p = s.srcByte p := by
  simp [srcByte, h, he]

theorem fbEntry_congr (s t : State) (h : t.fb = s.fb) (he : t.epoch = s.epoch) (i : Nat) : t.fbEntry i = s.fbEntry i := by
  simp [fbEntry, h, he]

end Sys2Proof.Machine.State
end

