-- ==== Sys2Proof/Laws/Step.lean ====
section
/-! SUPPORT. What the shared operations and one step can do, said once: the effect of a micro-operation, the acceptance of a
command, and every way a step can reach a next state. -/

namespace Sys2Proof.Machine

/-! ## Micro-operations -/

/-- The state after `do(u)`. -/
def State.perform (s : State) (u : Uop) : State :=
  match u with
  | .sdaLow => State.record { s with drvSda := true } .sdaLow []
  | .sdaRel => State.record { s with drvSda := false } .sdaRel []
  | .sclLow => State.record { s with drvScl := true } .sclLow []
  | .sclRel => State.record { s with drvScl := false } .sclRel []
  | .sdaSample => State.record { s with rxd := shiftIn s.rxd s.levelSda } .sdaSample []
  | .bothRel => State.record { s with drvSda := false, drvScl := false, draws := s.draws + 1 } .bothRel
      (if s.drvSda && s.drvScl then releasePath s (Config.releaseOrder s.draws) else [])

theorem exec_toInstr (u : Uop) (s : State) : exec u.toInstr s = .next (s.perform u) := by cases u <;> rfl

theorem perform_lineFrame (s : State) (u : Uop) : s.LineFrame (s.perform u) := by
  cases u <;> constructor <;> first | rfl | (intro; rfl)

@[simp] theorem perform_cfg (s : State) (u : Uop) : (s.perform u).cfg = s.cfg := by cases u <;> rfl
@[simp] theorem perform_plan (s : State) (u : Uop) : (s.perform u).plan = s.plan := by cases u <;> rfl
@[simp] theorem perform_upc (s : State) (u : Uop) : (s.perform u).upc = s.upc := by cases u <;> rfl
@[simp] theorem perform_ill (s : State) (u : Uop) : (s.perform u).ill = s.ill := by cases u <;> rfl
@[simp] theorem perform_fb (s : State) (u : Uop) : (s.perform u).fb = s.fb := by cases u <;> rfl
@[simp] theorem perform_src (s : State) (u : Uop) : (s.perform u).src = s.src := by cases u <;> rfl
@[simp] theorem perform_envSdaLow (s : State) (u : Uop) : (s.perform u).envSdaLow = s.envSdaLow := by cases u <;> rfl
@[simp] theorem perform_envSclLow (s : State) (u : Uop) : (s.perform u).envSclLow = s.envSclLow := by cases u <;> rfl
@[simp] theorem perform_host (s : State) (u : Uop) : (s.perform u).host = s.host := by cases u <;> rfl
@[simp] theorem perform_sched (s : State) (u : Uop) : (s.perform u).sched = s.sched := by cases u <;> rfl
@[simp] theorem perform_hostLog (s : State) (u : Uop) : (s.perform u).hostLog = s.hostLog := by cases u <;> rfl
@[simp] theorem perform_epoch (s : State) (u : Uop) : (s.perform u).epoch = s.epoch := by cases u <;> rfl
@[simp] theorem perform_trace (s : State) (u : Uop) : (s.perform u).trace = s.trace ++ [u] := by cases u <;> rfl

/-- Only the sample writes `RXD`. -/
theorem perform_rxd (s : State) (u : Uop) (h : u ≠ .sdaSample) : (s.perform u).rxd = s.rxd := by
  cases u <;> first | rfl | exact absurd rfl h

/-- The sample writes no drive bit. -/
theorem perform_sample_drives (s : State) :
    (s.perform .sdaSample).drvSda = s.drvSda ∧ (s.perform .sdaSample).drvScl = s.drvScl := ⟨rfl, rfl⟩

/-- The waveform ends with the levels the micro-operation leaves. -/
theorem perform_wave_end (s : State) (u : Uop) : (s.perform u).wave.getLast? = some (s.perform u).levels := by
  cases u <;> simp [State.perform, State.record, State.levels]

/-! ## Commands -/

/-- Every command's meaning is the acceptance of its plan on its legality. -/
theorem exec_command (i : Instr) (s : State) (h : i.isCommand = true) : exec i s = accept (legal i s) (uops i s) s := by
  cases i <;> first | rfl | exact absurd h (by decide)

theorem scan_some (s : State) (room a : Nat) (cs : List Byte) :
    s.scan room a = some cs ↔
      cs.length < room ∧ s.srcByte (a + cs.length) = s.cfg.term ∧ (∀ j < cs.length, s.srcByte (a + j) ≠ s.cfg.term) ∧
        cs = (List.range cs.length).map fun j => s.srcByte (a + j) := by
  induction room generalizing a cs with
  | zero => simp [State.scan]
  | succ room ih =>
    simp only [State.scan]
    split
    · rename_i ht
      cases cs with
      | nil => simp [ht]
      | cons c cs =>
        simp only [Option.some.injEq, List.nil_eq, reduceCtorEq, List.length_cons, false_iff, not_and]
        intro _ _ h
        exact absurd ht (h 0 (by omega))
    · rename_i ht
      cases cs with
      | nil => simp [ht]
      | cons c cs =>
        have hsh : ∀ j, a + 1 + j = a + (j + 1) := fun j => by omega
        simp only [Option.map_eq_some_iff, List.cons.injEq]
        constructor
        · rintro ⟨ds, hd, rfl, rfl⟩
          obtain ⟨h1, h2, h3, h4⟩ := (ih (a + 1) ds).1 hd
          refine ⟨by simp; omega, by simpa [hsh] using h2, ?_, ?_⟩
          · intro j hj
            cases j with
            | zero => exact ht
            | succ j => simpa [hsh] using h3 j (by simpa using hj)
          · simp only [List.length_cons, List.range_succ_eq_map, List.map_cons, List.map_map, Nat.add_zero]
            congr 1
            conv_lhs => rw [h4]
            exact List.map_congr_left fun j _ => by simp [hsh]
        · rintro ⟨h1, h2, h3, h4⟩
          simp only [List.length_cons, List.range_succ_eq_map, List.map_cons, List.map_map, Nat.add_zero,
            List.cons.injEq] at h4
          refine ⟨cs, (ih (a + 1) cs).2 ⟨by simp at h1; omega, by simpa [hsh] using h2, ?_, ?_⟩, h4.1.symm, rfl⟩
          · intro j hj
            simpa [hsh] using h3 (j + 1) (by simpa using hj)
          · conv_lhs => rw [h4.2]
            exact List.map_congr_left fun j _ => by simp [hsh]

/-- The string at `ptr` is the characters before the first terminator inside `SRC`. -/
theorem stringAt_some (s : State) (ptr : Nat) (cs : List Byte) :
    s.stringAt ptr = some cs ↔
      ptr + cs.length < 4096 ∧ s.srcByte (ptr + cs.length) = s.cfg.term ∧
        (∀ j < cs.length, s.srcByte (ptr + j) ≠ s.cfg.term) ∧
        cs = (List.range cs.length).map fun j => s.srcByte (ptr + j) := by
  rw [State.stringAt, scan_some]
  have : cs.length < Config.srcSize - ptr ↔ ptr + cs.length < 4096 := by simp [Config.srcSize]; omega
  rw [this]

theorem charOk_iff (p : Params) (c : Byte) : p.charOk c = true ↔ 32 ≤ c.toNat ∧ c.toNat - 32 < p.n5 := by
  unfold Params.charOk
  rw [Bool.and_eq_true, decide_eq_true_iff, decide_eq_true_iff]
  rfl

theorem digitOk_iff (p : Params) (v : Byte) : p.digitOk v = true ↔ v.toNat < p.n3 := by simp [Params.digitOk]

/-- Legality as computed is legality in the spec's words. -/
theorem legal_iff (i : Instr) (s : State) : legal i s = true ↔ operandsLegal i s := by
  cases i with
  | stream ptr len => exact decide_eq_true_iff
  | rchar v => simpa [legal, operandsLegal] using charOk_iff s.cfg v
  | rdigit v => simpa [legal, operandsLegal] using digitOk_iff s.cfg v
  | rframe => simp [legal, operandsLegal, frameOk, State.fbEntries, Config.fbSize, digitOk_iff]
  | rstr ptr =>
    simp only [legal, operandsLegal, stringOk]
    constructor
    · intro h
      cases hs : s.stringAt ptr.toNat with
      | none => rw [hs] at h; exact absurd h (by simp)
      | some cs =>
        rw [hs] at h
        obtain ⟨h1, h2, h3, h4⟩ := (stringAt_some _ _ _).1 hs
        refine ⟨cs.length, h1, h2, fun j hj => ⟨h3 j hj, ?_⟩⟩
        rw [← charOk_iff]
        have : s.srcByte (ptr.toNat + j) ∈ cs := by
          rw [h4]; exact List.mem_map.2 ⟨j, by simpa using hj, rfl⟩
        exact (List.all_eq_true.1 h) _ this
    · rintro ⟨k, h1, h2, h3⟩
      have : s.stringAt ptr.toNat = some ((List.range k).map fun j => s.srcByte (ptr.toNat + j)) := by
        rw [stringAt_some]
        simp only [List.length_map, List.length_range]
        exact ⟨h1, h2, fun j hj => (h3 j hj).1, trivial⟩
      rw [this]
      simp only [List.all_map, List.all_eq_true, List.mem_range, Function.comp]
      exact fun j hj => (charOk_iff _ _).2 (h3 j hj).2
  | _ => simp [legal, operandsLegal]

/-- Every plan has a first micro-operation. -/
theorem uops_ne_nil (i : Instr) (s : State) : uops i s ≠ [] := by
  cases i <;> simp [uops, uopsInit, uopsStart, uopsWrite, uopsAckPulse, uopsRead, uopsStop, uopsDinit, uopsCursor, uopsClear,
    uopsStream, uopsRchar, uopsRstr, uopsRdigit, uopsRframe, uopsWrites, txn, glyph5, digit64]

/-- A word decodes to a command. -/
theorem decodeWord_isCommand (w : CmdWord) (i : Instr) (h : decodeWord w = .ok i) : i.isCommand = true := by
  simp only [decodeWord, formatN, formatV, formatF, formatP, formatC, formatS, formatQ] at h
  repeat' split at h
  all_goals first
    | (cases h; rfl)
    | cases h

/-! ## One step -/

/-- Every way a step reaches a next state. -/
inductive Moves (s : State) : State → Prop
  /-- The sequencer has no plan. -/
  | idle (ht : s.nextTurn = .sequencer) (hp : s.plan = []) : Moves s s.popTurn
  /-- The sequencer performs the micro-operation at `UPC`. -/
  | perform (u : Uop) (ht : s.nextTurn = .sequencer) (hu : s.plan[s.upc]? = some u) :
      Moves s (s.popTurn.perform u).advance
  /-- The host has no access left. -/
  | noAccess (ht : s.nextTurn = .host) (hh : s.host = []) : Moves s s.popTurn
  /-- The host's write waits. -/
  | waits (ht : s.nextTurn = .host) (hp : s.plan ≠ [])
      (hh : (∃ w rest, s.host = .issue w :: rest) ∨
        ∃ n v rest r, s.host = .write8 n v :: rest ∧ regOf n = some r ∧ r.waits = true) : Moves s s.popTurn
  /-- A command is accepted. -/
  | accepted (w : CmdWord) (rest : List HostAction) (i : Instr) (ht : s.nextTurn = .host) (hp : s.plan = [])
      (hh : s.host = .issue w :: rest) (hd : decodeWord w = .ok i) (hl : operandsLegal i s) :
      Moves s { s.popTurn with host := rest, plan := uops i s, upc := 0 }
  /-- An illegal word is dropped. -/
  | dropped (w : CmdWord) (rest : List HostAction) (ht : s.nextTurn = .host) (hp : s.plan = [])
      (hh : s.host = .issue w :: rest) (hi : IllegalWord w s) : Moves s { s.popTurn with host := rest, ill := true }
  /-- A byte write completes. -/
  | wrote (n : Nat) (v : Byte) (rest : List HostAction) (r : HostReg) (ht : s.nextTurn = .host)
      (hh : s.host = .write8 n v :: rest) (hr : regOf n = some r) (hc : r ≠ .cmd) (hp : r.waits = true → s.plan = []) :
      Moves s (State.writeReg { s.popTurn with host := rest } r v)
  /-- A read completes. -/
  | didRead (n : Nat) (rest : List HostAction) (r : HostReg) (ht : s.nextTurn = .host) (hh : s.host = .read n :: rest)
      (hr : regOf n = some r) :
      Moves s { s.popTurn with host := rest, hostLog := s.hostLog ++ [{ reg := n, value := s.readReg r }] }
  /-- The environment sets its inputs. -/
  | env (a b : Bool) (ht : s.nextTurn = .env a b) : Moves s (s.popTurn.setEnv a b)
  /-- Reset strikes. -/
  | reset (ht : s.nextTurn = .reset) : Moves s s.popTurn.resetBlock

theorem uops_congr (i : Instr) (s t : State) (hc : t.cfg = s.cfg) (hf : t.fb = s.fb) (hs : t.src = s.src)
    (he : t.epoch = s.epoch) : uops i t = uops i s := by
  have h1 : t.srcByte = s.srcByte := funext fun p => State.srcByte_congr s t hs he p
  have h2 : t.fbEntry = s.fbEntry := funext fun p => State.fbEntry_congr s t hf he p
  have h3 : ∀ room a, t.scan room a = s.scan room a := by
    intro room
    induction room with
    | zero => intro a; rfl
    | succ room ih => intro a; simp [State.scan, h1, hc, ih]
  cases i <;> simp [uops, uopsStream, State.srcRange, uopsRstr, State.stringAt, uopsRframe, State.fbEntries, h1, h2, h3, hc]

theorem operandsLegal_congr (i : Instr) (s t : State) (hc : t.cfg = s.cfg) (hf : t.fb = s.fb) (hs : t.src = s.src)
    (he : t.epoch = s.epoch) : operandsLegal i t ↔ operandsLegal i s := by
  have h1 : t.srcByte = s.srcByte := funext fun p => State.srcByte_congr s t hs he p
  have h2 : t.fbEntry = s.fbEntry := funext fun p => State.fbEntry_congr s t hf he p
  cases i <;> simp [operandsLegal, h1, h2, hc]

/-- A step to a next state is one of the ways of `Moves`. -/
theorem step_moves (s t : State) (h : step s = .next t) : Moves s t := by
  unfold step at h
  split at h
  case h_1 ht =>
    unfold sequencerTurn at h
    split at h
    case h_1 hf =>
      cases h
      refine .idle ht ?_
      simp only [State.fetch] at hf
      split at hf
      · split at hf <;> cases hf
      · rename_i hb
        simpa [State.busy] using hb
    case h_2 u hf =>
      rw [exec_toInstr] at h
      cases h
      refine .perform u ht ?_
      simp only [State.fetch] at hf
      split at hf
      · split at hf <;> cases hf
        assumption
      · cases hf
    case h_3 => cases h
  case h_2 ht =>
    unfold hostTurn at h
    split at h
    case h_1 hh => cases h; exact .noAccess ht hh
    case h_2 w rest hh =>
      split at h
      · rename_i hb
        cases h
        exact .waits ht (by simpa [State.busy] using hb) (.inl ⟨w, rest, hh⟩)
      · rename_i hb
        have hp : s.plan = [] := by simpa [State.busy] using hb
        unfold issueWord at h
        split at h
        · rename_i i hd
          rw [exec_command _ _ (decodeWord_isCommand w i hd)] at h
          unfold accept at h
          split at h
          · rename_i hl
            cases h
            have hl' := (operandsLegal_congr i s { s.popTurn with host := rest } rfl rfl rfl rfl).1 ((legal_iff i _).1 hl)
            rw [uops_congr i s { s.popTurn with host := rest } rfl rfl rfl rfl]
            exact .accepted w rest i ht hp hh hd hl'
          · rename_i hl
            cases h
            rw [legal_iff] at hl
            exact .dropped w rest ht hp hh
              (.inr ⟨i, hd, fun hs => hl ((operandsLegal_congr i s _ rfl rfl rfl rfl).2 hs)⟩)
        · rename_i e hd
          cases h
          exact .dropped w rest ht hp hh (.inl fun i hi => by rw [hd] at hi; cases hi)
    case h_3 n v rest hh =>
      split at h
      · cases h
      · cases h
      · rename_i r hc hr
        split at h
        · rename_i hw
          cases h
          simp only [Bool.and_eq_true] at hw
          exact .waits ht (by simpa [State.busy] using hw.2) (.inr ⟨n, v, rest, r, hh, hr, hw.1⟩)
        · rename_i hw
          cases h
          refine .wrote n v rest r ht hh hr (fun hx => hc hx) fun hwt => ?_
          simpa [hwt, State.busy] using hw
    case h_4 n rest hh =>
      split at h
      · cases h
      · rename_i r hr
        cases h
        exact .didRead n rest r ht hh hr
  case h_3 a b ht => cases h; exact .env a b ht
  case h_4 ht => cases h; exact .reset ht

end Sys2Proof.Machine
end

