-- ==== Sys2Proof/Laws/Run.lean ====
section
/-! SUPPORT. Runs: a plan performed to its end is the fold of its micro-operations, with what the environment does between
them, over the state; the sequencer's position plays no other part. -/

namespace Sys2Proof.Machine

theorem runSteps_zero (s : State) : runSteps 0 s = .next s := rfl

/-- A first step to a next state, for any machine of the host's interface. -/
theorem coreRun_succ (M : Host.Core) (n : Nat) (s t : M.State) (h : M.step s = .next t) : M.run (n + 1) s = M.run n t := by
  simp only [Host.Core.run, h]

/-- A run to a next state has a first step to one. -/
theorem coreRun_first (M : Host.Core) (n : Nat) (s t : M.State) (h : M.run (n + 1) s = .next t) :
    ∃ s', M.step s = .next s' := by
  simp only [Host.Core.run] at h
  split at h
  · exact ⟨_, ‹_›⟩
  · cases h
  · cases h

theorem runSteps_succ (n : Nat) (s t : State) (h : step s = .next t) : runSteps (n + 1) s = runSteps n t :=
  coreRun_succ Sys2Proof.core n s t h

theorem runSteps_add (m n : Nat) (s t : State) (h : runSteps m s = .next t) : runSteps (m + n) s = runSteps n t := by
  induction m generalizing s with
  | zero => cases h; simp
  | succ m ih =>
    obtain ⟨s1, hs⟩ := coreRun_first Sys2Proof.core m s t h
    rw [runSteps_succ m s s1 hs] at h
    rw [show m + 1 + n = (m + n) + 1 by omega, runSteps_succ _ s s1 hs, ih s1 h]

/-- What happens on the lines in one turn: a micro-operation, or the environment. -/
inductive Act where
  | uop (u : Uop)
  | env (a b : Bool)

/-- The state after one act; the sequencer's position is left alone. -/
def State.act (s : State) : Act → State
  | .uop u => s.perform u
  | .env a b => s.setEnv a b

/-- The state after a list of acts. -/
def State.acts (s : State) (l : List Act) : State := l.foldl State.act s

/-- A plan's micro-operations in the sequencer's turns, with the environment's turns between them. -/
def weave : List Turn → List Uop → List Act
  | .sequencer :: ts, u :: us => .uop u :: weave ts us
  | .env a b :: ts, us => .env a b :: weave ts us
  | _, _ => []

/-- The sequencer's position and the schedule set anew. -/
def State.setPos (s : State) (p : List Uop) (n : Nat) (ts : List Turn) : State := { s with plan := p, upc := n, sched := ts }

theorem act_setPos (s : State) (p : List Uop) (n : Nat) (ts : List Turn) (a : Act) :
    (s.setPos p n ts).act a = (s.act a).setPos p n ts := by
  cases a with
  | env a b => rfl
  | uop u => cases u <;> rfl

theorem acts_setPos (s : State) (p : List Uop) (n : Nat) (ts : List Turn) (l : List Act) :
    (s.setPos p n ts).acts l = (s.acts l).setPos p n ts := by
  induction l generalizing s with
  | nil => rfl
  | cons a l ih => simp only [State.acts, List.foldl_cons] at ih ⊢; rw [act_setPos]; exact ih (s.act a)

theorem setPos_setPos (s : State) (p q : List Uop) (n m : Nat) (ts us : List Turn) :
    (s.setPos p n ts).setPos q m us = s.setPos q m us := rfl

theorem acts_nil (s : State) : s.acts [] = s := rfl

theorem acts_cons (s : State) (a : Act) (l : List Act) : s.acts (a :: l) = (s.act a).acts l := rfl

theorem acts_append (s : State) (l m : List Act) : s.acts (l ++ m) = (s.acts l).acts m := by simp [State.acts]

/-- `todo` is what is left of the plan. -/
structure State.Left (s : State) (todo : List Uop) : Prop where
  drop_eq : s.plan.drop s.upc = todo
  upc_le : s.upc ≤ s.plan.length
  done : todo = [] → s.plan = [] ∧ s.upc = 0

theorem Left_of_accepted (s : State) (plan : List Uop) (hp : s.plan = plan) (hu : s.upc = 0) : s.Left plan :=
  ⟨by simp [hp, hu], by simp [hu], fun h => ⟨by rw [hp, h], hu⟩⟩

theorem Left_perform (s : State) (u : Uop) (us : List Uop) (h : s.Left (u :: us)) :
    (s.popTurn.perform u).advance.Left us ∧ s.plan[s.upc]? = some u := by
  have hd := h.drop_eq
  have hlen : s.upc + (us.length + 1) = s.plan.length := by
    have := congrArg List.length hd
    simp only [List.length_drop, List.length_cons] at this
    have := h.upc_le
    omega
  have hu : s.plan[s.upc]? = some u := by
    have := congrArg (·[0]?) hd
    simpa using this
  refine ⟨?_, hu⟩
  by_cases he : s.upc + 1 = s.plan.length
  · have hus : us = [] := by
      cases us with
      | nil => rfl
      | cons => simp at hlen; omega
    rw [State.advance_last _ (by simpa using he), hus]
    exact ⟨rfl, by simp, fun _ => ⟨rfl, rfl⟩⟩
  · rw [State.advance_more _ (by simpa using he)]
    refine ⟨?_, ?_, ?_⟩
    · simp only [perform_plan, perform_upc, State.popTurn_plan, State.popTurn_upc]
      rw [← List.drop_drop, hd]
      rfl
    · simp; omega
    · intro hus
      subst hus
      simp at hlen
      omega

theorem advance_eq_setPos (s : State) : ∃ p n, s.advance = s.setPos p n s.sched := by
  unfold State.advance
  split
  · exact ⟨[], 0, rfl⟩
  · exact ⟨s.plan, s.upc + 1, rfl⟩

theorem step_sequencer (s : State) (u : Uop) (ht : s.nextTurn = .sequencer) (hu : s.plan[s.upc]? = some u) :
    step s = .next (s.popTurn.perform u).advance := by
  have hne : s.plan ≠ [] := by intro h; simp [h] at hu
  have hb : s.popTurn.busy = true := (State.busy_iff _).2 (by simpa using hne)
  have hf : s.popTurn.fetch = .uop u := by
    have : s.popTurn.plan[s.popTurn.upc]? = some u := hu
    rw [State.fetch, if_pos hb, this]
  simp only [step, ht, sequencerTurn, hf, exec_toInstr, thenAdvance]

/-- A plan under a schedule of sequencer and environment turns. -/
theorem run_left (turns : List Turn) : ∀ (s : State) (todo : List Uop), s.Left todo → s.sched = turns →
    turns.all Turn.sequencerOrEnv = true → turns.count Turn.sequencer = todo.length →
    runSteps turns.length s = .next ((s.acts (weave turns todo)).setPos [] 0 []) := by
  induction turns with
  | nil =>
    intro s todo hl hs _ hc
    have : todo = [] := by simpa using hc.symm
    subst this
    obtain ⟨h1, h2⟩ := hl.done rfl
    simp only [List.length_nil, runSteps_zero, weave, acts_nil]
    congr 1
    cases s
    simp_all [State.setPos]
  | cons x ts ih =>
    intro s todo hl hs ha hc
    have hnt : s.nextTurn = x := by simp [State.nextTurn, hs]
    have hts : ts.all Turn.sequencerOrEnv = true := by
      simp only [List.all_cons, Bool.and_eq_true] at ha; exact ha.2
    cases x with
    | sequencer =>
      cases todo with
      | nil => simp at hc
      | cons u us =>
        obtain ⟨hl', hu⟩ := Left_perform s u us hl
        obtain ⟨p, n, hadv⟩ := advance_eq_setPos (s.popTurn.perform u)
        rw [List.length_cons, runSteps_succ _ _ _ (step_sequencer s u hnt hu),
          ih _ us hl' (by simp [hs]) hts (by simpa using hc)]
        simp only [weave, acts_cons]
        rw [hadv, acts_setPos, setPos_setPos]
        have : s.popTurn.perform u = (s.perform u).setPos s.plan s.upc s.sched.tail := act_setPos s _ _ _ (.uop u)
        rw [this, acts_setPos, setPos_setPos]
        rfl
    | env a b =>
      have hst : step s = .next (s.popTurn.setEnv a b) := by simp [step, hnt]
      have hl' : (s.popTurn.setEnv a b).Left todo := ⟨hl.drop_eq, hl.upc_le, hl.done⟩
      rw [List.length_cons, runSteps_succ _ _ _ hst, ih _ todo hl' (by simp [hs]) hts (by simpa using hc)]
      simp only [weave, acts_cons]
      have : s.popTurn.setEnv a b = (s.setEnv a b).setPos s.plan s.upc s.sched.tail := rfl
      rw [this, acts_setPos, setPos_setPos]
      rfl
    | host => simp [Turn.sequencerOrEnv] at ha
    | reset => simp [Turn.sequencerOrEnv] at ha

/-- A plan with nothing scheduled runs by itself. -/
theorem run_left_quiet (todo : List Uop) : ∀ s : State, s.Left todo → s.sched = [] →
    runSteps todo.length s = .next ((s.acts (todo.map Act.uop)).setPos [] 0 []) := by
  induction todo with
  | nil =>
    intro s hl hs
    obtain ⟨h1, h2⟩ := hl.done rfl
    simp only [List.length_nil, runSteps_zero, List.map_nil, acts_nil]
    congr 1
    cases s
    simp_all [State.setPos]
  | cons u us ih =>
    intro s hl hs
    obtain ⟨hl', hu⟩ := Left_perform s u us hl
    have hne : s.plan ≠ [] := by intro h; simp [h] at hu
    have hnt : s.nextTurn = .sequencer := by
      simp [State.nextTurn, hs, (State.busy_iff s).2 hne]
    obtain ⟨p, n, hadv⟩ := advance_eq_setPos (s.popTurn.perform u)
    rw [List.length_cons, runSteps_succ _ _ _ (step_sequencer s u hnt hu), ih _ hl' (by simp [hs])]
    simp only [List.map_cons, acts_cons]
    rw [hadv, acts_setPos, setPos_setPos]
    have : s.popTurn.perform u = (s.perform u).setPos s.plan s.upc s.sched.tail := act_setPos s _ _ _ (.uop u)
    rw [this, acts_setPos, setPos_setPos]
    rfl

/-- `run_left` for a plan that has just been accepted. -/
theorem run_ready (s : State) (plan : List Uop) (turns : List Turn) (h : s.Ready plan turns) :
    runSteps turns.length s = .next ((s.acts (weave turns plan)).setPos [] 0 []) :=
  run_left turns s plan (Left_of_accepted s plan h.plan_eq h.upc_eq) h.sched_eq h.agents h.enough

end Sys2Proof.Machine
end

