-- ==== Sys2Proof/Tests/Slice0.lean ====
section
/-! SUPPORT. Tests. Each expected result is a vector of 95_test_vectors.md, named in the comment before it, or a few lines of
hand calculation from one; the last part shows, for every statement that has hypotheses, states and operands that meet them. -/

namespace Sys2Proof.Tests
open Sys2Proof Sys2Proof.Machine

/-! ## Example parameters and states -/

/-- The example parameters of 95_test_vectors.md, with made-up font tables of the smallest size the vectors need: 34 text
glyphs, so that 'A' is the last, and sixteen digits. -/
def params : Params where
  addrW := 0x78
  addr7 := 0x3C
  initSeq := [0xAF]
  colLoHigh := 0x0
  colHiHigh := 0x1
  pageHigh := 0x16
  panelW := 128
  panelH := 32
  glyphs5 := [#v[0, 0, 0, 0, 0], #v[0, 0, 0x5F, 0, 0]] ++ List.replicate 31 #v[1, 1, 1, 1, 1]
    ++ [#v[0x7E, 0x11, 0x12, 0x14, 0x7E]]
  glyphs3 := Vector.replicate 15 #v[0x01, 0x02, 0x04]
  glyphs3More := []
  blankPick := 5
  colonPick := 6
  term := 0x00
  resetDrvSda := false
  resetDrvScl := false
  tHighMin := 1
  tLowMin := 1
  tStep := 1

/-- A block with nothing to do, the two drive bits as given and the environment pulling the data line or not. -/
def block (sda scl pulled : Bool) : State where
  cfg := params
  drvSda := sda
  drvScl := scl
  rxd := 0x5A
  plan := []
  upc := 0
  ill := false
  fb := []
  src := []
  envSdaLow := pulled
  envSclLow := false
  host := []
  sched := []
  hostLog := []
  trace := []
  wave := [Levels.of sda scl pulled false]
  epoch := 0
  draws := 0

/-- Both lines released, nobody pulling. -/
def idle : State := block false false false

/-- A zero in every entry of the frame buffer, and the string "A!" at 0x100. -/
def filled : State := { idle with
  fb := [(0, 0), (1, 0), (2, 0), (3, 0), (4, 0), (5, 0), (6, 0), (7, 0)]
  src := [(0x010, 0x01), (0x011, 0x02), (0x012, 0x03), (0x100, 0x41), (0x101, 0x21), (0x102, 0x00)] }

/-- A property of the next state, where there is one. -/
def after (f : State → α) : Result → Option α
  | .next t => some (f t)
  | .fault _ => none
  | .refused _ => none

/-- The refusal, where there is one. -/
def refusal : Result → Option Refusal
  | .next _ => none
  | .fault _ => none
  | .refused r => some r

/-- A plan as micro-operation codes. -/
def codes (s : State) : List Nat := s.plan.map fun u => u.code.toNat

/-- The drive bits and the levels of the lines. -/
def lines (s : State) : Bool × Bool × Levels := (s.drvSda, s.drvScl, s.levels)

/-- What `STAT` and the plan are. -/
def status (s : State) : Byte × Nat := (s.stat, s.plan.length)

/-! ## Words written out from the encoding (V-X1 to V-X13; 30_encoding.md R50 to R52): op, x, y, bit by bit -/

theorem test_decode_init : decodeWord 0b00000000_000000000000_000000000000 = .ok .init := by decide
theorem test_decode_start : decodeWord 0b00000001_000000000000_000001111000 = .ok (.start 0x78) := by decide
theorem test_decode_write : decodeWord 0b00000010_000000000000_000010100101 = .ok (.write 0xA5) := by decide
theorem test_decode_read : decodeWord 0b00000011_000000000000_000000000001 = .ok (.read true) := by decide
theorem test_decode_read_last : decodeWord 0b00000011_000000000000_000000000000 = .ok (.read false) := by decide
theorem test_decode_stop : decodeWord 0b00000100_000000000000_000000000000 = .ok .stop := by decide
theorem test_decode_dinit : decodeWord 0b00010000_000000000000_000000000000 = .ok .dinit := by decide
theorem test_decode_cursor : decodeWord 0b00010001_000000000011_000000100101 = .ok (.cursor 0x25 3) := by decide
theorem test_decode_clear : decodeWord 0b00010010_000000000000_001000000000 = .ok (.clear 512) := by decide
theorem test_decode_stream : decodeWord 0b00010011_000000010000_000000000011 = .ok (.stream 0x010 3) := by decide
theorem test_decode_rchar : decodeWord 0b00100000_000000000000_000001000001 = .ok (.rchar 0x41) := by decide
theorem test_decode_rstr : decodeWord 0b00100001_000100000000_000000000000 = .ok (.rstr 0x100) := by decide
theorem test_decode_rdigit : decodeWord 0b00100010_000000000000_000000000000 = .ok (.rdigit 0) := by decide
theorem test_decode_rframe : decodeWord 0b00100011_000000000000_000000000000 = .ok .rframe := by decide

/-- 30_encoding.md R57: the codes of the micro-operations; 6 and 7 are unused. -/
theorem test_decode_codes : [0, 1, 2, 3, 4, 5, 6, 7].map (fun c => decode (.code c)) =
    [.ok .sdaLow, .ok .sdaRel, .ok .sclLow, .ok .sclRel, .ok .sdaSample, .ok .bothRel, .error .unusedCode,
     .error .unusedCode] := by decide

/-- V-X14 to V-X16: reserved opcodes. -/
theorem test_reserved_opcodes : [0x05000000, 0xFF000000, 0x14000000, 0x24000000, 0x30000000].map decodeWord =
    [.error (.reservedOpcode 0x05), .error (.reservedOpcode 0xFF), .error (.reservedOpcode 0x14),
     .error (.reservedOpcode 0x24), .error (.reservedOpcode 0x30)] := by decide

/-- V-X17 to V-X23, V-X27, V-X32: reserved bits, one word per format. -/
theorem test_reserved_bits : [0x00000001, 0x04001000, 0x02000100, 0x03000002, 0x11008000, 0x11000100, 0x12001000,
    0x21000001, 0x23000001].all (fun w => decodeWord w == .error .reservedBits) = true := by decide

/-- The table's bit numbering: the whole word for a command, bits 2:0 for a micro-operation. -/
theorem test_decode_table_word : decodeTableWord 32 0x11003025 = some (.cursor 0x25 3) ∧
    decodeTableWord 3 4 = some .sdaSample ∧ decodeTableWord 8 5 = some .bothRel ∧ decodeTableWord 3 6 = none ∧
    decodeTableWord 32 0x05000000 = none := by decide

/-! ## Well-formedness: each check refuses a term, at the edge of what it admits (V-X24 to V-X26, V-X30) -/

theorem test_wf_stream : Instr.wf params (.stream 0xFFF 1) = true ∧ Instr.wf params (.stream 0xFFF 2) = false := by decide
theorem test_wf_rchar_low : Instr.wf params (.rchar 32) = true ∧ Instr.wf params (.rchar 31) = false := by decide
theorem test_wf_rchar_high : Instr.wf params (.rchar 0x41) = true ∧ Instr.wf params (.rchar 0x42) = false := by decide
theorem test_wf_rdigit : Instr.wf params (.rdigit 15) = true ∧ Instr.wf params (.rdigit 16) = false := by decide

/-! ## Micro-operations (V-U1 to V-U13) -/

/-- V-U1. -/
theorem test_sdaLow : after lines (exec .sdaLow idle) = some (true, false, ⟨false, true⟩) := by decide
/-- V-U2: a step in the trace though nothing changes. -/
theorem test_sdaLow_again : after (fun t => (lines t, t.trace)) (exec .sdaLow (block true false false)) =
    some ((true, false, ⟨false, true⟩), [.sdaLow]) := by decide
/-- V-U3. -/
theorem test_sdaRel : after lines (exec .sdaRel (block true true false)) = some (false, true, ⟨true, false⟩) := by decide
/-- V-U4: released, but the slave holds it. -/
theorem test_sdaRel_held : after lines (exec .sdaRel (block true true true)) =
    some (false, true, ⟨false, false⟩) := by decide
/-- V-U5. -/
theorem test_sclLow : after lines (exec .sclLow idle) = some (false, true, ⟨true, false⟩) := by decide
/-- V-U6. -/
theorem test_sclRel : after lines (exec .sclRel (block false true false)) = some (false, false, ⟨true, true⟩) := by decide
/-- V-U7, V-U8. -/
theorem test_sdaSample : after State.rxd (exec .sdaSample idle) = some 0xB5 ∧
    after State.rxd (exec .sdaSample (block false false true)) = some 0xB4 := by decide
/-- V-U9, V-U10: the block's own driver reads 0; the old bit 7 is dropped. -/
theorem test_sdaSample_edges :
    after State.rxd (exec .sdaSample { block true false false with rxd := 0xFF }) = some 0xFE ∧
    after State.rxd (exec .sdaSample { idle with rxd := 0x80 }) = some 0x01 := by decide
/-- V-U11: both released; what happens on the way is free. -/
theorem test_bothRel : after lines (exec .bothRel (block true true false)) = some (false, false, ⟨true, true⟩) := by decide
/-- V-U12: only the data line moves, and it is a STOP condition. -/
theorem test_bothRel_stop : after (fun t => (lines t, events (fun _ => .noEvent) t.wave)) (exec .bothRel (block true false false)) =
    some ((false, false, ⟨true, true⟩), [.stopCond]) := by decide

/-! ## Engine commands (V-E1 to V-E13): plans as codes -/

/-- V-E13. -/
theorem test_init : after codes (exec .init (block true true false)) = some [5] := by decide
/-- V-E8. -/
theorem test_start : after codes (exec (.start 0x78) idle) = some [0, 2, 0, 3, 2, 0, 1, 3, 2, 0, 1, 3, 2, 0, 1, 3, 2,
    0, 1, 3, 2, 0, 3, 2, 0, 3, 2, 0, 3, 2, 1, 3, 2] := by decide
/-- V-E3. -/
theorem test_write : after codes (exec (.write 0xA5) idle) = some [0, 1, 3, 2, 0, 3, 2, 0, 1, 3, 2, 0, 3, 2, 0, 3, 2,
    0, 1, 3, 2, 0, 3, 2, 0, 1, 3, 2, 1, 3, 2] := by decide
/-- V-E7. -/
theorem test_write_mode : after codes (exec (.write 0x40) idle) = some [0, 3, 2, 0, 1, 3, 2, 0, 3, 2, 0, 3, 2, 0, 3, 2,
    0, 3, 2, 0, 3, 2, 0, 3, 2, 1, 3, 2] := by decide
/-- V-E10, V-E11. -/
theorem test_read : after codes (exec (.read true) idle) = some [1, 3, 4, 2, 3, 4, 2, 3, 4, 2, 3, 4, 2, 3, 4, 2, 3, 4,
    2, 3, 4, 2, 3, 4, 2, 0, 3, 2, 1] := by decide
theorem test_read_last : after codes (exec (.read false) idle) = some [1, 3, 4, 2, 3, 4, 2, 3, 4, 2, 3, 4, 2, 3, 4, 2,
    3, 4, 2, 3, 4, 2, 3, 4, 2, 3, 2, 1] := by decide
/-- V-E12. -/
theorem test_stop : after codes (exec .stop idle) = some [0, 3, 1] := by decide

/-! ## Display commands (V-D12 to V-D17): plan lengths with the example parameters -/

/-- V-D16. -/
theorem test_dinit : after status (exec .dinit idle) = some (0x01, 96) := by decide +kernel
/-- V-D13, V-D3. -/
theorem test_cursor : after status (exec (.cursor 0x25 3) idle) = some (0x01, 153) := by decide +kernel
theorem test_cursor_bytes : cursorLo params 0x25 = 0x05 ∧ cursorHi params 0x25 = 0x12 ∧ cursorPage params 3 = 0xB3 := by
  decide
/-- V-D7, by R100: 148 + (5 + 27 * 4 + 4 + 1). -/
theorem test_clear : after status (exec (.clear 2) idle) = some (0x01, 266) := by decide +kernel
/-- V-D6, by V-D12 and V-D17: 148 + 64. -/
theorem test_clear_none : after status (exec (.clear 0) idle) = some (0x01, 212) := by decide +kernel
/-- V-D15. -/
theorem test_stream : after status (exec (.stream 0x010 3) filled) = some (0x01, 149) := by decide +kernel
/-- V-X24: illegal, and nothing but `ILL`. -/
theorem test_stream_past_end : after status (exec (.stream 0xFFF 2) filled) = some (0x02, 0) := by decide

/-! ## The renderer (V-R1 to V-R14) -/

/-- V-R1, V-R2. -/
theorem test_stretch : [0, 1, 2, 3].map stretch = [0x00, 0x0F, 0xF0, 0xFF] ∧
    [0x07, 0xFE, 0x81].map (fun b : Byte => stretch (b.setWidth 2)) = [0xFF, 0xF0, 0x0F] := by decide
/-- V-R3. -/
theorem test_quad : [0x7F, 0x41, 0xE4, 0x80, 0xAA].map quad = [[0xFF, 0xFF, 0xFF, 0x0F], [0x0F, 0x00, 0x00, 0x0F],
    [0x00, 0x0F, 0xF0, 0xFF], [0x00, 0x00, 0x00, 0xF0], [0xF0, 0xF0, 0xF0, 0xF0]] := by decide
/-- V-R6, V-R7. -/
theorem test_offsets : [32, 33, 65, 127].map off5 = [0, 5, 165, 475] ∧ [0, 1, 15].map off3 = [0, 3, 45] := by decide
/-- V-R8, with the glyph of `params`. -/
theorem test_glyph5 : glyph5 params 0x41 = [0x00, 0x7E, 0x11, 0x12, 0x14, 0x7E] := by decide
/-- V-R9: 6 * 27 and the eighteen one bits of the glyph. -/
theorem test_rchar : after status (exec (.rchar 0x41) idle) = some (0x01, 180) := by decide +kernel
/-- V-X25. -/
theorem test_rchar_illegal : after status (exec (.rchar 0x1F) idle) = some (0x02, 0) := by decide
/-- S6: the data bytes of "A!". -/
theorem test_string : (filled.stringAt 0x100).map (List.flatMap (glyph5 params)) =
    some [0x00, 0x7E, 0x11, 0x12, 0x14, 0x7E, 0x00, 0x00, 0x00, 0x5F, 0x00, 0x00] := by decide
/-- V-R11: the empty string. -/
theorem test_rstr_empty : after status (exec (.rstr 0x102) filled) = some (0x01, 64) := by decide +kernel
/-- V-X29: an illegal character before the terminator. -/
theorem test_rstr_illegal : after status (exec (.rstr 0x100) { filled with src := [(0x100, 0x1F), (0x101, 0x00)] }) =
    some (0x02, 0) := by decide
/-- V-R5. -/
theorem test_rdigit : after status (exec (.rdigit 0) idle) = some (0x01, 2000) := by decide +kernel
/-- V-X30. -/
theorem test_rdigit_illegal : after status (exec (.rdigit 16) idle) = some (0x02, 0) := by decide
/-- V-R12: the frame is the eight entries in order. -/
theorem test_rframe : after (fun t => (t.busy, t.ill)) (exec .rframe filled) = some (true, false) ∧
    filled.fbEntries = [0, 0, 0, 0, 0, 0, 0, 0] := by decide
/-- V-X31. -/
theorem test_rframe_illegal : after status (exec .rframe { filled with fb := [(0, 0), (1, 0), (2, 0), (3, 0), (4, 0),
    (5, 0), (6, 0), (7, 16)] }) = some (0x02, 0) := by decide

/-! ## The host, the step and reset (V-H1 to V-H13) -/

/-- V-H5, V-X14: a legal word makes the block busy, an illegal one sets `ILL`. -/
theorem test_issue : after status (step { idle with host := [.issue 0x020000A5] }) = some (0x01, 31) ∧
    after status (step { idle with host := [.issue 0x05000000] }) = some (0x02, 0) := by decide
/-- V-H6: the last of the steps clears `BUSY`. -/
theorem test_last_step : after status (step { idle with plan := [.sclRel, .sclLow], upc := 1 }) = some (0x00, 0) ∧
    after State.upc (step { idle with plan := [.sclRel, .sclLow], upc := 0 }) = some 1 := by decide
/-- V-H8: the write waits. -/
theorem test_write_waits : after (fun t => (t.fb, t.host)) (step { idle with
    plan := [.bothRel], sched := [.host], host := [.write8 0x0013 5] }) = some ([], [.write8 0x0013 5]) := by decide
/-- V-H3, V-H9, V-H12: `OUT`, `DIR` after START, `CMD`. -/
theorem test_host_reads : [0x0004, 0x0003, 0x0000].map (fun n =>
    after State.hostLog (step { block false true false with host := [.read n] })) =
    [some [⟨0x0004, 0x00⟩], some [⟨0x0003, 0x02⟩], some [⟨0x0000, 0x00⟩]] := by decide
/-- V-H11: unmapped. -/
theorem test_unmapped : [0x0006, 0x0018, 0x2000].map (fun n => refusal (step { idle with host := [.read n] })) =
    [some (.unmappedRegister 0x0006), some (.unmappedRegister 0x0018), some (.unmappedRegister 0x2000)] := by decide
/-- V-H13: reset in the middle of a plan. -/
theorem test_reset_strikes : after (fun t => (t.plan, t.upc, t.stat)) (step { block true true false with
    plan := uopsWrite 0xFF, upc := 10, ill := true, sched := [.reset] }) = some ([], 0, 0x00) := by decide
/-- The first instruction after reset, placed by `withFetchWord`: STOP's word, then SDA_SAMPLE's code. -/
theorem test_first_after_reset : after codes (step (State.reset.withFetchWord 32 0x04000000)) = some [0, 3, 1] ∧
    after State.trace (step (State.reset.withFetchWord 3 4)) = some [.sdaSample] := ⟨rfl, rfl⟩

/-! ## The observer, the contract and the assembler -/

/-- V-E19: STOP on an idle bus, as a waveform: an empty transaction. -/
theorem test_observer : readItems (fun _ => .noEvent) [⟨true, true⟩, ⟨false, true⟩, ⟨false, true⟩, ⟨true, true⟩] =
    [.start, .stop] := by decide
/-- 40_line_microops.md R81: one bit, then a STOP condition with the rise that belongs to it: a framing violation. -/
theorem test_framing_violation : readItems (fun _ => .noEvent) [⟨true, true⟩, ⟨false, true⟩, ⟨false, false⟩, ⟨false, true⟩,
    ⟨false, false⟩, ⟨false, true⟩, ⟨true, true⟩] = [.start, .framingViolation 1, .stop] := by decide
/-- 93_implementation_defined.md U2: both lines rising at once is read as whatever the reading is. -/
theorem test_simultaneous : [.noEvent, .startCond, .stopCond, .rise false, .rise true].map (fun r =>
    events (fun _ => r) [⟨false, false⟩, ⟨true, true⟩]) = [[], [.startCond], [.stopCond], [.rise false], [.rise true]] := by
  decide
/-- 41_engine.md R93: P1 keeps the contract; P7, a group with no INIT before it and a second INIT do not. -/
theorem test_contract : respectsContract [.init, .start 0x78, .write 0x00, .write 0xAF, .stop] = true ∧
    respectsContract [.init, .start 0x78, .write 0x40] = false ∧ respectsContract [.start 0x78, .stop] = false ∧
    respectsContract [.init, .start 0x78, .stop, .init, .start 0x78, .stop] = false := by decide
/-- 30_encoding.md R64, R65: a line with a comment, hexadecimal and decimal; a pseudo-instruction; P6's second line. -/
theorem test_assembler : Asm.assembleLine params ['C', 'U', 'R', 'S', 'O', 'R', ' ', '0', 'x', '2', '5', ',', ' ', '3', ' ', ';', 'c'] =
      some [.cursor 0x25 3] ∧
    Asm.assembleLine params ['O', 'P', 'E', 'N', '_', 'D', 'A', 'T', 'A'] = some [.start 0x78, .write 0x40] ∧
    Asm.assembleLine params ['W', 'R', 'I', 'T', 'E', ' ', '0', 'x', '1', 'F', 'F'] = none := by decide

/-! ## Witnesses: for each statement with hypotheses, states and operands that meet them together

A statement of several clauses has one for each, at the edges of its ranges. -/

/-- A block that has just accepted `plan`, with these turns to come. -/
def running (s : State) (plan : List Uop) (turns : List Turn) : State := { s with plan := plan, upc := 0, sched := turns }

/-- It is ready to run the plan to its end when the turns are the sequencer's. -/
theorem ready_running (s : State) (plan : List Uop) :
    (running s plan (seqTurns plan.length)).Ready plan (seqTurns plan.length) where
  plan_eq := rfl
  upc_eq := rfl
  sched_eq := rfl
  agents := by simp [seqTurns, Turn.sequencerOrEnv]
  enough := by simp [seqTurns]

theorem quiet_idle : idle.Quiet := ⟨rfl, rfl, rfl⟩
theorem quiet_block (sda scl : Bool) : (block sda scl false).Quiet := ⟨rfl, rfl, rfl⟩

theorem witness_EncodeOfDecodeIsTheEncoding :
    decode (.word 0x13FFFFFF) = .ok (.stream 0xFFF 0xFFF) ∧ decode (.code 5) = .ok .bothRel := by decide

theorem witness_DecodesExactlyTheTableRows : (⟨"CURSOR", 0x11000000, 0xFFFF8F00⟩ : TableRow) ∈ opcodeTable ∧
    (0x110070FF : CmdWord) &&& 0xFFFF8F00 = 0x11000000 ∧ (0x11008000 : CmdWord) &&& 0xFFFF8F00 ≠ 0x11000000 := by decide

theorem witness_ReservedOpcodesAreIllegal :
    ∀ w ∈ ([0x05000000, 0x0FFFFFFF, 0x14000000, 0x1F000000, 0x24000000, 0xFF000000] : List CmdWord),
    (opOf w).toNat ∉ [0x00, 0x01, 0x02, 0x03, 0x04, 0x10, 0x11, 0x12, 0x13, 0x20, 0x21, 0x22, 0x23] := by
  intro w hw
  simp only [List.mem_cons, List.not_mem_nil, or_false] at hw
  rcases hw with rfl | rfl | rfl | rfl | rfl | rfl <;> decide

theorem witness_AssemblerLineIsItsCommand :
    Asm.disassemble (.cursor 0xFF 7) = some ⟨['C', 'U', 'R', 'S', 'O', 'R'], [255, 7]⟩ := rfl

/-- Before the last micro-operation, at the last, and an issue on an idle block. -/
theorem witness_StepRunsWhatItFetches :
    (let s := running idle [.sdaLow, .sclLow] [.sequencer]
     s.nextTurn = .sequencer ∧ s.plan[s.upc]? = some .sdaLow ∧ ∃ t, exec Uop.sdaLow.toInstr s.popTurn = .next t) ∧
    (let s : State := { running idle [.sdaLow, .sclLow] [.sequencer] with upc := 1 }
     s.nextTurn = .sequencer ∧ s.plan[s.upc]? = some .sclLow ∧ ∃ t, exec Uop.sclLow.toInstr s.popTurn = .next t) ∧
    (let s : State := { idle with host := [.issue 0x04000000] }
     s.nextTurn = .host ∧ s.plan = [] ∧ s.host = .issue 0x04000000 :: [] ∧ decodeWord 0x04000000 = .ok .stop) :=
  ⟨⟨rfl, rfl, _, rfl⟩, ⟨rfl, rfl, _, rfl⟩, rfl, rfl, rfl, rfl⟩

theorem witness_FetchWordIsRunByTheNextStep : decodeTableWord 32 0x04000000 = some .stop ∧ Instr.stop.isCommand = true ∧
    decodeTableWord 3 5 = some .bothRel ∧ Instr.bothRel.toUop = some .bothRel := by decide

theorem witness_CommandsAreAcceptedByTheirPlans :
    (Instr.stream 0xFFF 1).isCommand = true ∧ operandsLegal (.stream 0xFFF 1) filled ∧
    ¬ operandsLegal (.stream 0xFFF 2) filled ∧ operandsLegal (.rchar 0x41) filled ∧ ¬ operandsLegal (.rchar 0x42) filled ∧
    operandsLegal (.rdigit 15) filled ∧ ¬ operandsLegal (.rdigit 16) filled := by
  refine ⟨rfl, ?_, ?_, ?_, ?_, ?_, ?_⟩ <;> simp only [operandsLegal] <;> decide

theorem witness_operandsLegal_rstr : operandsLegal (.rstr 0x100) filled ∧ operandsLegal (.rstr 0x102) filled := by
  refine ⟨⟨2, ?_, ?_, ?_⟩, ⟨0, ?_, ?_, ?_⟩⟩ <;> decide

theorem witness_operandsLegal_rframe : operandsLegal .rframe filled := by simp only [operandsLegal]; decide

theorem witness_IllegalWordIsDroppedWhole :
    (let s : State := { idle with host := [.issue 0x05000000] }
     s.nextTurn = .host ∧ s.plan = [] ∧ s.host = .issue 0x05000000 :: [] ∧ IllegalWord 0x05000000 s) ∧
    (let s : State := { idle with host := [.issue 0x13FFF002] }
     s.nextTurn = .host ∧ s.plan = [] ∧ s.host = .issue 0x13FFF002 :: [] ∧ IllegalWord 0x13FFF002 s) := by
  refine ⟨⟨rfl, rfl, rfl, .inl fun i h => ?_⟩, rfl, rfl, rfl, .inr ⟨.stream 0xFFF 2, by decide, ?_⟩⟩
  · exact absurd h (by rw [show decodeWord 0x05000000 = .error (.reservedOpcode 0x05) by decide]; simp)
  · simp only [operandsLegal]; decide

theorem witness_SampleShiftsTheDataLevelIn : (block true false false).drvSda = true ∧ idle.drvSda = false := by decide

theorem witness_BothRelReleasesInSomeOrder : (block true true false).drvSda = true ∧ (block true true false).drvScl = true ∧
    ¬ ((block true false false).drvSda = true ∧ (block true false false).drvScl = true) := by decide

theorem witness_MicroOpsAreTotalAndIdempotentOnDriveBits :
    (∃ t t', exec Uop.sdaLow.toInstr idle = .next t ∧ exec Uop.sdaLow.toInstr (block true true true) = .next t') ∧
    State.levelSda { idle with rxd := 0 } = true ∧ State.rxd { idle with rxd := 0 } = 0 := ⟨⟨_, _, rfl, rfl⟩, rfl, rfl⟩

theorem witness_EnginePlanLengths : Instr.init.isCommand = true ∧ operandsLegal .init idle ∧
    (Instr.rdigit 15).isCommand = true ∧ operandsLegal (.rdigit 15) idle := by
  refine ⟨rfl, trivial, rfl, ?_⟩
  simp only [operandsLegal]; decide

theorem witness_PlansAreBounded : Instr.clear 4095 ≠ .dinit ∧ operandsLegal (.clear 4095) idle ∧
    Instr.rstr 0x100 ≠ .dinit ∧ operandsLegal (.rstr 0x100) filled :=
  ⟨by decide, trivial, by decide, witness_operandsLegal_rstr.1⟩

/-- With the environment moving in between. -/
theorem witness_PlansRunToTheirEnd :
    (running idle uopsStop [.env true false, .sequencer, .env false true, .sequencer, .sequencer, .env false false]).Ready
      uopsStop [.env true false, .sequencer, .env false true, .sequencer, .sequencer, .env false false] := by
  constructor <;> decide

theorem witness_EnvironmentReachesOnlyRxdAndLevels :
    (running (block false true true) (uopsRead true) [.env true false]).SameButEnv
      (running (block false true false) (uopsRead true) [.env false false]) := by
  constructor <;> first | rfl | exact .cons rfl .nil

theorem witness_DriveBitsOnCompletion : ∀ i ∈ [Instr.start 0x78, .write 0xA5, .read true, .init, .stop],
    ∃ (s : State) (turns : List Turn), s.Ready (uops i s) turns ∧ i.isCommand = true ∧ operandsLegal i s := by
  intro i hi
  refine ⟨running (block true true true) (uops i idle) (seqTurns (uops i idle).length), seqTurns (uops i idle).length, ?_⟩
  simp only [List.mem_cons, List.not_mem_nil, or_false] at hi
  rcases hi with rfl | rfl | rfl | rfl | rfl <;> exact ⟨ready_running _ _, rfl, trivial⟩

theorem witness_ReadReceivesTheByte :
    (let bits := [true, true, false, false, false, false, true, true]
     let s := running (block false true false) (uopsRead true) (readTurns bits true true)
     bits.length = 8 ∧ s.drvScl = true ∧ s.plan = uops (.read true) s ∧ s.upc = 0 ∧
       s.sched = readTurns bits true true) ∧
    (let bits := [false, true, false, true, true, false, true, false]
     let s := running (block false true false) (uopsRead false) (readTurns bits false true)
     bits.length = 8 ∧ s.drvScl = true ∧ s.plan = uops (.read false) s ∧ s.upc = 0 ∧
       s.sched = readTurns bits false true) := ⟨⟨rfl, rfl, rfl, rfl, rfl⟩, rfl, rfl, rfl, rfl, rfl⟩

theorem witness_WriteDeliversTheByte :
    (let pulls := List.replicate 8 false
     let s := running (block false true false) (uopsWrite 0xA5) (writeTurns 0xA5 pulls true)
     pulls.length = 8 ∧ s.drvScl = true ∧ s.plan = uops (.write 0xA5) s ∧ s.upc = 0 ∧
       s.sched = writeTurns 0xA5 pulls true) := ⟨rfl, rfl, rfl, rfl, rfl⟩

/-- P2's commands, and S2's with no command between. -/
theorem witness_FramingOfACallersTransaction : ∀ cs ∈ [[], [Instr.read true, .write 0xFF]],
    (∀ c ∈ cs, (∃ v, c = .write v) ∨ (∃ f, c = .read f)) ∧
    ∃ s : State, s.Quiet ∧ s.drvSda = false ∧ s.drvScl = false ∧ s.plan = [] ∧ s.upc = 0 ∧
      s.host = ((Instr.start 0x79 :: cs) ++ [Instr.stop]).map (fun i => HostAction.issue (wordOf i)) := by
  intro cs hcs
  refine ⟨fun c hc => ?_, { idle with host := _ }, ⟨rfl, rfl, rfl⟩, rfl, rfl, rfl, rfl, rfl⟩
  simp only [List.mem_cons, List.not_mem_nil, or_false] at hcs
  rcases hcs with rfl | rfl
  · cases hc
  · simp only [List.mem_cons, List.not_mem_nil, or_false] at hc
    rcases hc with rfl | rfl
    · exact .inr ⟨_, rfl⟩
    · exact .inl ⟨_, rfl⟩

theorem witness_NoRepeatedStart :
    (let s := running (block false true false) (uopsStart 0x78) []
     s.Quiet ∧ s.drvScl = true ∧ s.plan = uops (.start 0x78) s ∧ s.upc = 0) := ⟨⟨rfl, rfl, rfl⟩, rfl, rfl, rfl⟩

/-- From a LOW clock, on an idle bus, and with the data line stuck LOW. -/
theorem witness_StopOnTheBus : ∀ s ∈ [block false true false, idle, block false true true],
    (let r := running s uopsStop []
     r.envSclLow = false ∧ r.sched = [] ∧ r.plan = uops .stop r ∧ r.upc = 0 ∧
       ((r.drvScl = true ∧ r.envSdaLow = false) ∨ (r.drvSda = false ∧ r.drvScl = false ∧ r.envSdaLow = false) ∨
         (r.drvScl = true ∧ r.envSdaLow = true))) := by
  decide

/-- Both lines driven, either alone, and neither. -/
theorem witness_InitOnTheBus : ∀ sda scl : Bool,
    (let s := running (block sda scl false) uopsInit []
     s.Quiet ∧ s.plan = uops .init s ∧ s.upc = 0 ∧ s.drvSda = sda ∧ s.drvScl = scl) :=
  fun _ _ => ⟨⟨rfl, rfl, rfl⟩, rfl, rfl, rfl, rfl⟩

theorem witness_DisplayCommandsSetTheirPlans : (0xFFF : BitVec 12).toNat + (1 : BitVec 12).toNat ≤ 4096 ∧
    4096 < (0xFFF : BitVec 12).toNat + (2 : BitVec 12).toNat := by decide

theorem witness_CursorBytes : decodeWord 0x110070FF = .ok (.cursor 0xFF 7) := by decide

theorem witness_FramedCommandsLeaveAnIdleBus :
    ∀ i ∈ [Instr.dinit, .cursor 0xFF 7, .clear 2, .stream 0x010 3, .rstr 0x100, .rframe],
    (i = .dinit ∨ (∃ c g, i = .cursor c g) ∨ (∃ n, i = .clear n) ∨ (∃ a n, i = .stream a n) ∨ (∃ a, i = .rstr a) ∨
      i = .rframe) ∧ ∃ (s : State) (turns : List Turn), s.Ready (uops i s) turns := by
  intro i hi
  refine ⟨?_, running filled (uops i filled) (seqTurns (uops i filled).length), seqTurns (uops i filled).length, ?_⟩
  · simp only [List.mem_cons, List.not_mem_nil, or_false] at hi
    rcases hi with rfl | rfl | rfl | rfl | rfl | rfl <;> simp
  · have h := uops_congr i filled (running filled (uops i filled) (seqTurns (uops i filled).length)) rfl rfl rfl rfl
    rw [h]
    exact ready_running _ _

theorem witness_TransactionIsReadByTheObserver :
    (let s := running idle (txn params 0x40 [0x01, 0xFF]) []
     s.Quiet ∧ s.drvSda = false ∧ s.drvScl = false ∧ s.plan = txn s.cfg 0x40 [0x01, 0xFF] ∧ s.upc = 0) :=
  ⟨⟨rfl, rfl, rfl⟩, rfl, rfl, rfl, rfl⟩

theorem witness_GlyphCommandsSetTheirPlans :
    (32 ≤ (0x41 : Byte).toNat ∧ (0x41 : Byte).toNat - 32 < filled.cfg.n5) ∧ (0x1F : Byte).toNat < 32 ∧
    filled.cfg.n5 ≤ (0x42 : Byte).toNat - 32 ∧ (15 : Byte).toNat < filled.cfg.n3 ∧ filled.cfg.n3 ≤ (16 : Byte).toNat ∧
    (∀ k < 8, (filled.fbEntry k).toNat < filled.cfg.n3) ∧
    (∃ k < 8, filled.cfg.n3 ≤ (State.fbEntry { filled with fb := [(7, 16)] } k).toNat) := by
  refine ⟨by decide, by decide, by decide, by decide, by decide, by decide, 7, by decide, by decide⟩

theorem witness_StringIsRenderedToItsTerminator : (0x100 : BitVec 12).toNat + 2 < 4096 ∧
    filled.srcByte ((0x100 : BitVec 12).toNat + 2) = filled.cfg.term ∧
    (∀ j < 2, filled.srcByte ((0x100 : BitVec 12).toNat + j) ≠ filled.cfg.term ∧
      32 ≤ (filled.srcByte ((0x100 : BitVec 12).toNat + j)).toNat ∧
      (filled.srcByte ((0x100 : BitVec 12).toNat + j)).toNat - 32 < filled.cfg.n5) := by decide

/-- No terminator to the end of `SRC`, and a character outside the font before one. -/
theorem witness_UnrenderableStringIsIllegal :
    (let s : State := { idle with src := [(0xFFF, 0x41)] }
     ∀ k, (0xFFF : BitVec 12).toNat + k < 4096 → s.srcByte ((0xFFF : BitVec 12).toNat + k) ≠ s.cfg.term) ∧
    (let s : State := { idle with src := [(0x100, 0x41), (0x101, 0x1F), (0x102, 0x00)] }
     ∃ j, (0x100 : BitVec 12).toNat + j < 4096 ∧ (∀ k ≤ j, s.srcByte ((0x100 : BitVec 12).toNat + k) ≠ s.cfg.term) ∧
       ((s.srcByte ((0x100 : BitVec 12).toNat + j)).toNat < 32 ∨
         s.cfg.n5 ≤ (s.srcByte ((0x100 : BitVec 12).toNat + j)).toNat - 32)) := by
  refine ⟨fun k hk => ?_, 1, by decide, by decide, by decide⟩
  have : k = 0 := by
    have : (0xFFF : BitVec 12).toNat = 4095 := rfl
    omega
  subst this
  decide

theorem witness_GlyphIsSpacerAndFiveBytes : 32 ≤ (32 : Byte).toNat ∧ (32 : Byte).toNat < 32 + params.n5 ∧
    32 ≤ (0x41 : Byte).toNat ∧ (0x41 : Byte).toNat < 32 + params.n5 := by decide

theorem witness_DigitIsSpacerAndStretchedColumns : (0 : Byte).toNat < params.n3 ∧ (15 : Byte).toNat < params.n3 := by decide

theorem witness_OffsetsAndBitPairs : 32 ≤ (32 : Byte).toNat ∧ 32 ≤ (0xFF : Byte).toNat := by decide

theorem witness_FramedGlyphsEqualTheSameByHand : filled.stringAt (0x100 : BitVec 12).toNat = some [0x41, 0x21] ∧
    filled.stringAt (0x102 : BitVec 12).toNat = some [] := by decide

theorem witness_StatusRegister :
    (let s : State := { running idle uopsStop [.host] with host := [.write8 0x0001 0xFF] }
     s.nextTurn = .host ∧ s.host = .write8 0x0001 0xFF :: []) := by decide

/-- Every row of the map, the two memories at both ends. -/
theorem witness_HostReadsReturnTheRegisterMap :
    ∀ n ∈ [0x0000, 0x0001, 0x0002, 0x0003, 0x0004, 0x0005, 0x0010 + 0, 0x0010 + 7, 0x1000 + 0, 0x1000 + 4095],
    (let s : State := { running idle uopsStop [.host] with host := [.read n] }
     s.nextTurn = .host ∧ s.host = .read n :: []) := by decide

theorem witness_HostWritesWaitWhileBusy :
    ∀ a ∈ [HostAction.issue 0x04000000, .write8 (0x0010 + 0) 5, .write8 (0x0010 + 7) 5, .write8 (0x1000 + 0) 5,
      .write8 (0x1000 + 4095) 5],
    (let s : State := { running idle uopsStop [.host] with host := [a] }
     s.nextTurn = .host ∧ s.plan ≠ [] ∧ s.host = a :: []) := by decide

theorem witness_HostWriteReachesItsByteOnly :
    ∀ a ∈ [HostAction.write8 (0x0010 + 0) 5, .write8 (0x0010 + 7) 5, .write8 (0x1000 + 0) 5, .write8 (0x1000 + 4095) 5],
    (let s : State := { filled with host := [a] }
     s.nextTurn = .host ∧ s.plan = [] ∧ s.host = a :: []) := by decide

theorem witness_WritesToReadOnlyRegistersAreIgnored : ∀ n ∈ [1, 5],
    1 ≤ n ∧ n ≤ 5 ∧
    (let s : State := { running idle uopsStop [.host] with host := [.write8 n 0xFF] }
     s.nextTurn = .host ∧ s.host = .write8 n 0xFF :: []) := by decide

theorem witness_UnmappedRegistersAreRefused : ∀ n ∈ [0x0006, 0x000F, 0x0018, 0x0FFF, 0x2000],
    regOf n = none ∧
    (let s : State := { idle with host := [.read n] }
     s.nextTurn = .host ∧ s.host = .read n :: []) ∧
    (let s : State := { idle with host := [.write8 n 0xFF] }
     s.nextTurn = .host ∧ s.host = .write8 n 0xFF :: []) := by decide

/-- Reset clears a set flag; an illegal word sets a clear one. -/
theorem witness_IllIsStickyAndSetByIllegalWordsOnly :
    (let s : State := { idle with ill := true, sched := [.reset] }
     ∃ t, step s = .next t ∧ s.ill = true ∧ t.ill = false) ∧
    (let s : State := { idle with host := [.issue 0x05000000] }
     ∃ t, step s = .next t ∧ s.ill = false ∧ t.ill = true) := ⟨⟨_, rfl, rfl, rfl⟩, _, rfl, rfl, rfl⟩

theorem witness_OnlySamplesChangeRxd :
    (let s := running idle [.sdaSample] []
     ∃ t, step s = .next t ∧ t.rxd ≠ s.rxd) := ⟨_, rfl, by decide⟩

theorem witness_OnlyMicroOpsChangeTheDriveBits :
    (let s := running idle [.sdaLow] []
     ∃ t, step s = .next t ∧ (t.drvSda ≠ s.drvSda ∨ t.drvScl ≠ s.drvScl)) := ⟨_, rfl, by decide⟩

/-- A running plan, a write to the frame buffer, a write to the source buffer. -/
theorem witness_MemoriesStayWhileAPlanRuns :
    (let s := running filled uopsStop []
     ∃ t, step s = .next t ∧ s.nextTurn ≠ .reset ∧ s.plan ≠ []) ∧
    (let s : State := { filled with host := [.write8 0x0017 5] }
     ∃ t, step s = .next t ∧ s.nextTurn ≠ .reset ∧ t.fb ≠ s.fb) ∧
    (let s : State := { filled with host := [.write8 0x1FFF 5] }
     ∃ t, step s = .next t ∧ s.nextTurn ≠ .reset ∧ t.src ≠ s.src) :=
  ⟨⟨_, rfl, by decide, by decide⟩, ⟨_, rfl, by decide, by decide⟩, _, rfl, by decide, by decide⟩

theorem witness_ConfigurationNeverChanges : ∃ t, step { idle with sched := [.reset] } = .next t := ⟨_, rfl⟩

theorem witness_ResetStrikesAtAnyMoment : (running (block true true false) uopsStop [.reset]).nextTurn = .reset := by decide

/-- A state in the middle of a plan that keeps the invariant, and steps. -/
theorem witness_EveryStepKeepsTheInvariant :
    (let s : State := { running filled uopsStop [] with upc := 2 }
     s.Inv ∧ ∃ t, step s = .next t) := by
  refine ⟨?_, _, rfl⟩
  constructor <;> decide

/-- States that keep the invariant and are refused, for each of the two reasons. -/
theorem witness_NothingFaultsAndOnlyBadAccessesAreRefused :
    ∀ a ∈ [HostAction.read 0x2000, .write8 0x0006 1, .write8 0x0000 1],
    (let s : State := { filled with host := [a] }
     s.Inv ∧ ∃ r, step s = .refused r) := by
  intro a ha
  simp only [List.mem_cons, List.not_mem_nil, or_false] at ha
  rcases ha with rfl | rfl | rfl <;> refine ⟨?_, _, rfl⟩ <;> constructor <;> decide

end Sys2Proof.Tests
end

section
/-! The parameters of 00_scope.md R5: the low bits of the three opcodes, the sizes of the two font tables and the sentinels of
43_renderer.md R123. Each limit is a lemma about the parameter's own name, and the obligation is their conjunction. -/

namespace Sys2Proof

/-- Bits filled in below a field of high bits are outside any mask of the low bits. -/
theorem append_zero_and_low {n w : Nat} (high : BitVec n) (mask : BitVec w) :
    (high ++ 0#w) &&& (0#n ++ mask) = 0#(n + w) := by
  rw [BitVec.and_append, BitVec.and_zero, BitVec.zero_and, BitVec.zero_append_zero]

/-- A table of glyphs of `n` bytes, as bytes. -/
theorem length_flatMap_vectorToList {α : Type} {n : Nat} (glyphs : List (Vector α n)) :
    (glyphs.flatMap Vector.toList).length = n * glyphs.length := by
  simp [List.length_flatMap, Nat.mul_comm]

/-- A number reduced below both `n` and 256 is not cut by the byte that holds it. -/
theorem toNat_ofNat_mod_min_lt {n : Nat} (hn : 0 < n) (pick : Nat) :
    (BitVec.ofNat 8 (pick % min n 256)).toNat < n := by
  have hmod : pick % min n 256 < min n 256 := Nat.mod_lt _ (by omega)
  rw [BitVec.toNat_ofNat, Nat.mod_eq_of_lt (by omega)]
  omega

namespace Params

theorem colLoOp_and_low (p : Params) : p.colLoOp &&& 0x0F = 0 := append_zero_and_low p.colLoHigh 0xF#4

theorem colHiOp_and_low (p : Params) : p.colHiOp &&& 0x0F = 0 := append_zero_and_low p.colHiHigh 0xF#4

theorem pageOp_and_low (p : Params) : p.pageOp &&& 0x07 = 0 := append_zero_and_low p.pageHigh 0x7#3

theorem sixteen_le_n3 (p : Params) : 16 ≤ p.n3 := Nat.le_add_left 16 _

theorem n3_pos (p : Params) : 0 < p.n3 := Nat.lt_of_lt_of_le (by decide) p.sixteen_le_n3

theorem blankVal_lt_n3 (p : Params) : p.blankVal.toNat < p.n3 := toNat_ofNat_mod_min_lt p.n3_pos p.blankPick

theorem colonVal_lt_n3 (p : Params) : p.colonVal.toNat < p.n3 := toNat_ofNat_mod_min_lt p.n3_pos p.colonPick

theorem length_font5 (p : Params) : p.font5.length = 5 * p.n5 := length_flatMap_vectorToList p.glyphs5

/-- The documented glyph of digit value 0, the fifteen after it and the further ones are `N3` glyphs. -/
theorem length_font3 (p : Params) : p.font3.length = 3 * p.n3 := by
  have hglyphs : (Config.digit0 :: (p.glyphs3.toList ++ p.glyphs3More)).length = p.n3 := by
    rw [List.length_cons, List.length_append, Vector.length_toList, n3]
    omega
  rw [font3, length_flatMap_vectorToList, hglyphs]

end Params

/-- Settles O44: the limits of 00_scope.md R5 one by one, each by the shape of the record. -/
theorem parametersKeepTheirLimits : Obligations.ParametersKeepTheirLimits := fun p =>
  ⟨p.colLoOp_and_low, p.colHiOp_and_low, p.pageOp_and_low, p.sixteen_le_n3, p.blankVal_lt_n3, p.colonVal_lt_n3,
    p.length_font5, p.length_font3⟩

end Sys2Proof
end

section
/-! The host's register map (10_state.md R21) read both ways: which numbers name an entry of `FB` or of `SRC`, which name a
read-only register, which name nothing; and what a completed byte write does to each. -/

namespace Sys2Proof.Machine

theorem regOf_eq_fb_iff (n k : Nat) : regOf n = some (.fb k) ↔ k < 8 ∧ n = 0x0010 + k := by
  unfold regOf
  split_ifs <;> simp <;> omega

theorem regOf_eq_src_iff (n p : Nat) : regOf n = some (.src p) ↔ p < 4096 ∧ n = 0x1000 + p := by
  unfold regOf
  split_ifs <;> simp <;> omega

theorem regOf_eq_none_iff (n : Nat) :
    regOf n = none ↔ (5 < n ∧ n < 0x0010) ∨ (0x0017 < n ∧ n < 0x1000) ∨ 0x1FFF < n := by
  unfold regOf
  split_ifs <;> simp <;> omega

theorem regOf_fb {k : Nat} (hk : k < 8) : regOf (0x0010 + k) = some (.fb k) := (regOf_eq_fb_iff _ k).2 ⟨hk, rfl⟩

theorem regOf_src {p : Nat} (hp : p < 4096) : regOf (0x1000 + p) = some (.src p) := (regOf_eq_src_iff _ p).2 ⟨hp, rfl⟩

/-- The numbers 1 to 5 name the read-only registers, whose writes do not wait. -/
theorem regOf_readOnly {n : Nat} (hlow : 1 ≤ n) (hhigh : n ≤ 5) :
    ∃ r, regOf n = some r ∧ r ≠ .cmd ∧ r.waits = false := by
  obtain rfl | rfl | rfl | rfl | rfl : n = 1 ∨ n = 2 ∨ n = 3 ∨ n = 4 ∨ n = 5 := by omega
  · exact ⟨.stat, rfl, nofun, rfl⟩
  · exact ⟨.rxd, rfl, nofun, rfl⟩
  · exact ⟨.dir, rfl, nofun, rfl⟩
  · exact ⟨.out, rfl, nofun, rfl⟩
  · exact ⟨.pin, rfl, nofun, rfl⟩

namespace State

/-- A write that does not wait is a write to a register that ignores it. -/
theorem writeReg_of_not_waits (s : State) (r : HostReg) (v : Byte) (h : r.waits = false) : s.writeReg r v = s := by
  cases r with
  | fb _ | src _ => cases h
  | _ => rfl

/-- What a read returns does not depend on the turns to come. -/
@[simp] theorem readReg_popTurn (s : State) (r : HostReg) : s.popTurn.readReg r = s.readReg r := by cases r <;> rfl

theorem fbEntry_writeReg_same (s : State) (k : Nat) (v : Byte) : (s.writeReg (.fb k) v).fbEntry k = v := by
  simp [fbEntry, writeReg, Memory.read_write_same]

theorem fbEntry_writeReg_other (s : State) {j k : Nat} (v : Byte) (h : j ≠ k) :
    (s.writeReg (.fb k) v).fbEntry j = s.fbEntry j := by
  simp [fbEntry, writeReg, Memory.read_write_other _ _ _ _ h]

theorem srcByte_writeReg_same (s : State) (p : Nat) (v : Byte) : (s.writeReg (.src p) v).srcByte p = v := by
  simp [srcByte, writeReg, Memory.read_write_same]

theorem srcByte_writeReg_other (s : State) {a p : Nat} (v : Byte) (h : a ≠ p) :
    (s.writeReg (.src p) v).srcByte a = s.srcByte a := by
  simp [srcByte, writeReg, Memory.read_write_other _ _ _ _ h]

/-! ## The bits of the status register, and `DIR` and `PIN` as numbers -/

/-- Each bit of `STAT` (10_state.md R16). -/
theorem stat_getLsbD (s : State) (j : Nat) :
    s.stat.getLsbD j = match j with | 0 => s.busy | 1 => s.ill | _ + 2 => false := by
  refine BitVec.getLsbD_append.trans ?_
  rw [BitVec.getLsbD_append]
  match j with
  | 0 | 1 | _ + 2 => simp

theorem dir_setWidth (s : State) :
    s.dir.setWidth 32 = (if s.drvSda then 1 else 0) + (if s.drvScl then 2 else 0) := by
  unfold dir
  cases s.drvSda <;> cases s.drvScl <;> rfl

theorem pin_setWidth (s : State) : s.pin.setWidth 32 = if s.levelSda then 1 else 0 := by
  unfold pin
  cases s.levelSda <;> rfl

end State
end Sys2Proof.Machine
end

section
/-! One rule for each thing a turn of the host can do (10_state.md R17, R21, R27). A host turn's statement is proved from these
and does not unfold `step`. -/

namespace Sys2Proof.Machine
section HostTurn
variable {s : State} {rest : List HostAction} {n : Nat} {v : Byte} {r : HostReg} (ht : s.nextTurn = .host)

include ht in
theorem step_hostTurn : step s = hostTurn s.popTurn := by
  rw [step, ht]

include ht in
/-- On an idle block the issue of a word completes. -/
theorem step_issue {w : CmdWord} (hp : s.plan = []) (hh : s.host = .issue w :: rest) :
    step s = issueWord w { s.popTurn with host := rest } := by
  have hb : s.popTurn.busy = false := (State.not_busy_iff _).2 hp
  rw [step_hostTurn ht]
  simp [hostTurn, hh, hb]

include ht in
theorem step_issue_waits {w : CmdWord} (hp : s.plan ≠ []) (hh : s.host = .issue w :: rest) :
    step s = .next s.popTurn := by
  have hb : s.popTurn.busy = true := (State.busy_iff _).2 hp
  rw [step_hostTurn ht]
  simp [hostTurn, hh, hb]

include ht in
/-- A byte write waits while there is a plan if its register's writes wait, and completes otherwise. -/
theorem step_write8 (hh : s.host = .write8 n v :: rest) (hr : regOf n = some r) (hc : r ≠ .cmd) :
    step s = .next (if r.waits && s.popTurn.busy then s.popTurn else State.writeReg { s.popTurn with host := rest } r v) := by
  rw [step_hostTurn ht]
  cases r with
  | cmd => exact absurd rfl hc
  | _ => simp [hostTurn, hh, hr]

include ht in
theorem step_write8_completes (hh : s.host = .write8 n v :: rest) (hr : regOf n = some r) (hc : r ≠ .cmd)
    (hp : r.waits = false ∨ s.plan = []) : step s = .next (State.writeReg { s.popTurn with host := rest } r v) := by
  have hgo : (r.waits && s.popTurn.busy) = false := by
    rw [Bool.and_eq_false_iff, State.not_busy_iff]
    exact hp
  rw [step_write8 ht hh hr hc, hgo, if_neg Bool.false_ne_true]

include ht in
theorem step_write8_waits (hh : s.host = .write8 n v :: rest) (hr : regOf n = some r) (hc : r ≠ .cmd)
    (hw : r.waits = true) (hp : s.plan ≠ []) : step s = .next s.popTurn := by
  have hstay : (r.waits && s.popTurn.busy) = true := by
    rw [Bool.and_eq_true, State.busy_iff]
    exact ⟨hw, hp⟩
  rw [step_write8 ht hh hr hc, if_pos hstay]

include ht in
/-- A write to a read-only register is ignored, busy or not. -/
theorem step_write8_readOnly (hh : s.host = .write8 n v :: rest) (hlow : 1 ≤ n) (hhigh : n ≤ 5) :
    step s = .next { s.popTurn with host := rest } := by
  obtain ⟨r, hr, hc, hw⟩ := regOf_readOnly hlow hhigh
  rw [step_write8_completes ht hh hr hc (.inl hw), State.writeReg_of_not_waits _ r v hw]

include ht in
/-- A read completes at once, busy or not. -/
theorem step_read (hh : s.host = .read n :: rest) (hr : regOf n = some r) :
    step s = .next { s.popTurn with
      host := rest, hostLog := s.hostLog ++ [{ reg := n, value := s.readReg r }] } := by
  rw [step_hostTurn ht]
  simp [hostTurn, hh, hr]

include ht in
theorem step_unmapped_read (hh : s.host = .read n :: rest) (hr : regOf n = none) :
    step s = .refused (.unmappedRegister n) := by
  rw [step_hostTurn ht]
  simp [hostTurn, hh, hr]

include ht in
theorem step_unmapped_write8 (hh : s.host = .write8 n v :: rest) (hr : regOf n = none) :
    step s = .refused (.unmappedRegister n) := by
  rw [step_hostTurn ht]
  simp [hostTurn, hh, hr]

end HostTurn

/-- Settles O45: `STAT` bit by bit, and its number is one of the read-only registers'. -/
theorem statusRegister : Obligations.StatusRegister := by
  intro s
  refine ⟨?busy, s.stat_getLsbD 1, fun j hj => ?above, fun v rest ht hh => ?ignored⟩
  case busy => rw [State.stat_getLsbD, Bool.eq_iff_iff, decide_eq_true_iff, s.busy_iff]
  case above =>
    obtain ⟨k, rfl⟩ := Nat.exists_eq_add_of_le' hj
    exact s.stat_getLsbD (k + 2)
  case ignored => exact step_write8_readOnly ht hh (by decide) (by decide)

/-- Settles O46: the read rule at each row of the register map. -/
theorem hostReadsReturnTheRegisterMap : Obligations.HostReadsReturnTheRegisterMap := by
  intro s n rest ht hh got
  have hread : ∀ r, regOf n = some r → got (s.readReg r) := fun r hr => step_read ht hh hr
  refine ⟨?cmd, ?stat, ?rxd, ?dir, ?out, ?pin, ?fb, ?src⟩
  case cmd => rintro rfl; exact hread .cmd rfl
  case stat => rintro rfl; exact hread .stat rfl
  case rxd => rintro rfl; exact hread .rxd rfl
  case dir => rintro rfl; exact s.dir_setWidth ▸ hread .dir rfl
  case out => rintro rfl; exact hread .out rfl
  case pin => rintro rfl; exact s.pin_setWidth ▸ hread .pin rfl
  case fb => rintro k hk rfl; exact hread (.fb k) (regOf_fb hk)
  case src => rintro p hp rfl; exact hread (.src p) (regOf_src hp)

/-- Settles O47: an issue waits, and so does a byte write to either memory. -/
theorem hostWritesWaitWhileBusy : Obligations.HostWritesWaitWhileBusy := by
  rintro s rest ht hp (⟨w, hh⟩ | ⟨k, v, hk, hh⟩ | ⟨p, v, hlt, hh⟩)
  · exact step_issue_waits ht hp hh
  · exact step_write8_waits ht hh (regOf_fb hk) nofun rfl hp
  · exact step_write8_waits ht hh (regOf_src hlt) nofun rfl hp

/-- Settles O48: the write completes on the idle block, and the memory laws say what it reaches. -/
theorem hostWriteReachesItsByteOnly : Obligations.HostWriteReachesItsByteOnly := by
  constructor
  · intro s k v rest hk ht hp hh
    exact ⟨_, step_write8_completes ht hh (regOf_fb hk) nofun (.inr hp), State.fbEntry_writeReg_same _ k v,
      fun j hj => State.fbEntry_writeReg_other _ v hj, rfl⟩
  · intro s p v rest hlt ht hp hh
    exact ⟨_, step_write8_completes ht hh (regOf_src hlt) nofun (.inr hp), State.srcByte_writeReg_same _ p v,
      fun a ha => State.srcByte_writeReg_other _ v ha, rfl⟩

/-- Settles O49: the numbers 1 to 5 name registers whose writes neither wait nor change anything. -/
theorem writesToReadOnlyRegistersAreIgnored : Obligations.WritesToReadOnlyRegistersAreIgnored :=
  fun _ _ _ _ hlow hhigh ht hh => step_write8_readOnly ht hh hlow hhigh

/-- Settles O50: the gaps of the register map, and the two refusals of a host turn. -/
theorem unmappedRegistersAreRefused : Obligations.UnmappedRegistersAreRefused := fun _ n _ =>
  ⟨regOf_eq_none_iff n, fun hr ht =>
    ⟨fun hh => step_unmapped_read ht hh hr, fun _ hh => step_unmapped_write8 ht hh hr⟩⟩

end Sys2Proof.Machine
end

section
/-! Acceptance of a command, and what one step runs (10_state.md R15, R17). -/

namespace Sys2Proof.Machine

/-- Settles O10: a command's meaning is the acceptance of its plan, on the legality of 30_encoding.md R58. -/
theorem commandsAreAcceptedByTheirPlans : Obligations.CommandsAreAcceptedByTheirPlans := by
  intro i s hi
  rw [exec_command i s hi, ← legal_iff]
  constructor
  · intro hl
    rw [hl]
    rfl
  · intro hl
    rw [Bool.eq_false_of_not_eq_true hl]
    rfl

/-- On an idle block the issue of a word that decodes runs what it decodes to. -/
theorem step_issue_decoded {s : State} {w : CmdWord} {rest : List HostAction} {i : Instr} (ht : s.nextTurn = .host)
    (hp : s.plan = []) (hh : s.host = .issue w :: rest) (hd : decodeWord w = .ok i) :
    step s = exec i { s.popTurn with host := rest } := by
  rw [step_issue ht hp hh, issueWord, hd]

/-- Settles O7: the sequencer performs the micro-operation at `UPC` and advances; the host's issue runs the command. -/
theorem stepRunsWhatItFetches : Obligations.StepRunsWhatItFetches := by
  constructor
  · intro s t u ht hu hexec
    obtain rfl : s.popTurn.perform u = t := by
      rw [exec_toInstr] at hexec
      exact Host.Outcome.next.inj hexec
    simp [step_sequencer s u ht hu, State.advance]
  · intro s w rest i ht hp hh hd
    exact step_issue_decoded ht hp hh hd

/-- The step from a placed command word runs the command on the idle block. -/
theorem step_withFetchWord_command {s : State} {nbits w : Nat} {i : Instr} (hbits : ¬ nbits ≤ 8)
    (hd : decodeWord (BitVec.ofNat 32 w) = .ok i) :
    step (s.withFetchWord nbits w) = exec i { s with plan := [], upc := 0 } := by
  rw [State.withFetchWord, if_neg hbits]
  exact step_issue_decoded rfl rfl rfl hd

/-- The step from a placed micro-operation performs it and ends its one-element plan. -/
theorem step_withFetchWord_uop {s : State} {nbits w : Nat} {u : Uop} (hbits : nbits ≤ 8)
    (hu : uopOfTableBits w = some u) :
    step (s.withFetchWord nbits w) =
      .next { State.perform { s with plan := [u], upc := 0 } u with plan := [], upc := 0 } := by
  rw [State.withFetchWord, if_pos hbits, hu, step_sequencer _ u rfl rfl, State.advance_last _ (by simp)]
  rfl

/-- Settles O8: the two encodings of the table decoder, each with the clause of the other excluded. -/
theorem fetchWordIsRunByTheNextStep : Obligations.FetchWordIsRunByTheNextStep := by
  intro s nbits w i hdec
  unfold decodeTableWord at hdec
  split at hdec
  case isTrue hbits =>
    obtain ⟨u, hu, rfl⟩ := Option.map_eq_some_iff.1 hdec
    refine ⟨fun hcmd => absurd hcmd (by simp [toInstr_not_command]), fun u' hu' => ?_⟩
    obtain rfl : u = u' := Option.some.inj ((toUop_toInstr u).symm.trans hu')
    exact ⟨_, exec_toInstr u _, step_withFetchWord_uop hbits hu⟩
  case isFalse hbits =>
    have hd : decodeWord (BitVec.ofNat 32 w) = .ok i := by
      cases hw : decodeWord (BitVec.ofNat 32 w) <;> simp_all [Except.toOption]
    refine ⟨fun _ => step_withFetchWord_command hbits hd, fun u hu => ?_⟩
    have hcmd := decodeWord_isCommand _ i hd
    simp [Instr.isCommand, hu] at hcmd

end Sys2Proof.Machine
end

section
/-! The invariant (`State.Inv`): it holds after reset, each operation of a step keeps it, so every step does. -/

namespace Sys2Proof.Machine
namespace State.Inv
variable {s : State}

theorem perform (h : s.Inv) (u : Uop) : (s.perform u).Inv where
  upc_le := by simpa using h.upc_le
  upc_end := by simpa using h.upc_end
  fb_wf := by simpa using h.fb_wf
  src_wf := by simpa using h.src_wf
  wave_end := perform_wave_end s u

/-- Past a position inside the plan `UPC` is still inside it, or the plan is over. -/
theorem advance (h : s.Inv) (hlt : s.upc < s.plan.length) : s.advance.Inv := by
  by_cases hlast : s.upc + 1 = s.plan.length
  · rw [advance_last s hlast]
    exact ⟨Nat.le_refl 0, fun _ => ⟨rfl, rfl⟩, h.fb_wf, h.src_wf, h.wave_end⟩
  · rw [advance_more s hlast]
    exact ⟨hlt, fun hend => absurd hend hlast, h.fb_wf, h.src_wf, h.wave_end⟩

/-- A plan with a micro-operation in it is accepted. -/
theorem accepted (h : s.Inv) {plan : List Uop} (hne : plan ≠ []) : State.Inv { s with plan := plan, upc := 0 } where
  upc_le := Nat.zero_le _
  upc_end := fun hend => absurd (List.eq_nil_of_length_eq_zero hend.symm) hne
  fb_wf := h.fb_wf
  src_wf := h.src_wf
  wave_end := h.wave_end

/-- The register map keeps a write inside the memory it goes to. -/
theorem writeReg (h : s.Inv) {n : Nat} {r : HostReg} (hr : regOf n = some r) (v : Byte) : (s.writeReg r v).Inv := by
  cases r with
  | fb k =>
    obtain ⟨hk, -⟩ := (regOf_eq_fb_iff n k).1 hr
    exact { h with fb_wf := Memory.wf_write _ _ _ v hk h.fb_wf }
  | src p =>
    obtain ⟨hp, -⟩ := (regOf_eq_src_iff n p).1 hr
    exact { h with src_wf := Memory.wf_write _ _ _ v hp h.src_wf }
  | _ => exact h

theorem setEnv (h : s.Inv) (sdaLow sclLow : Bool) : (s.setEnv sdaLow sclLow).Inv :=
  { h with wave_end := by simp [State.levels] }

theorem resetBlock (s : State) : s.resetBlock.Inv where
  upc_le := Nat.le_refl 0
  upc_end := fun _ => ⟨rfl, rfl⟩
  fb_wf := Memory.wf_nil _
  src_wf := Memory.wf_nil _
  wave_end := rfl

/-- The turns, the host's accesses, its log and `ILL` are outside the invariant. -/
theorem outside (h : s.Inv) (sched : List Turn) (host : List HostAction) (hostLog : List HostRead) (ill : Bool) :
    State.Inv { s with sched := sched, host := host, hostLog := hostLog, ill := ill } :=
  ⟨h.upc_le, h.upc_end, h.fb_wf, h.src_wf, h.wave_end⟩

end State.Inv

/-- Settles O58: the plan and both memories are empty and the waveform is the one pair of levels. -/
theorem invariantHoldsAtReset : Obligations.InvariantHoldsAtReset :=
  ⟨Nat.le_refl 0, fun _ => ⟨rfl, rfl⟩, Memory.wf_nil _, Memory.wf_nil _, rfl⟩

/-- Settles O59, by the ways a step can move. -/
theorem everyStepKeepsTheInvariant : Obligations.EveryStepKeepsTheInvariant := by
  intro s t hs hstep
  have hpop : s.popTurn.Inv := hs.outside s.sched.tail s.host s.hostLog s.ill
  cases step_moves s t hstep with
  | idle | noAccess | waits => exact hpop
  | perform u ht hu =>
    obtain ⟨hlt, -⟩ := List.getElem?_eq_some_iff.1 hu
    exact (hpop.perform u).advance (by simpa using hlt)
  | accepted w rest i =>
    exact (hs.outside s.sched.tail rest s.hostLog s.ill).accepted (uops_ne_nil i s)
  | dropped w rest => exact hs.outside s.sched.tail rest s.hostLog true
  | wrote n v rest r ht hh hr =>
    exact (hs.outside s.sched.tail rest s.hostLog s.ill).writeReg hr v
  | didRead n rest r => exact hs.outside s.sched.tail rest _ s.ill
  | env a b => exact hpop.setEnv a b
  | reset => exact State.Inv.resetBlock s.popTurn

end Sys2Proof.Machine
end

section
/-! Which step can change which part of the state: each from the ways a step can move. -/

namespace Sys2Proof.Machine

/-- Settles O55: no operation of a step writes the parameter record. -/
theorem configurationNeverChanges : Obligations.ConfigurationNeverChanges := by
  intro s t hstep
  cases step_moves s t hstep <;> simp

/-- Settles O51: of the ways a step can move, a dropped word sets `ILL` and reset clears it. -/
theorem illIsStickyAndSetByIllegalWordsOnly : Obligations.IllIsStickyAndSetByIllegalWordsOnly := by
  intro s t hstep
  cases step_moves s t hstep with
  | dropped w rest ht hp hh hi => exact ⟨fun _ => nofun, fun _ _ => ⟨ht, hp, w, rest, hh, hi⟩⟩
  | reset ht => exact ⟨fun _ _ => ht, fun _ => nofun⟩
  | _ => simp +contextual

/-- A step that is no reset and performs no micro-operation leaves the drive bits and `RXD` alone. -/
theorem step_lines_cases {s t : State} (hstep : step s = .next t) :
    s.nextTurn = .reset ∨
      (∃ u, s.nextTurn = .sequencer ∧ s.plan[s.upc]? = some u ∧ t = (s.popTurn.perform u).advance) ∨
      (t.rxd = s.rxd ∧ t.drvSda = s.drvSda ∧ t.drvScl = s.drvScl) := by
  cases step_moves s t hstep with
  | perform u ht hu => exact .inr (.inl ⟨u, ht, hu, rfl⟩)
  | reset ht => exact .inl ht
  | _ => simp

/-- Settles O52: among the micro-operations only the sample writes `RXD`. -/
theorem onlySamplesChangeRxd : Obligations.OnlySamplesChangeRxd := by
  intro s t hstep hne
  rcases step_lines_cases hstep with hreset | ⟨u, ht, hu, rfl⟩ | ⟨hrxd, -, -⟩
  · exact .inl hreset
  · have hsample : u = .sdaSample := by
      by_contra hother
      exact hne (by simp [perform_rxd _ u hother])
    exact .inr ⟨ht, hsample ▸ hu⟩
  · exact absurd hrxd hne

/-- Settles O53: the sample is the one micro-operation that writes no drive bit. -/
theorem onlyMicroOpsChangeTheDriveBits : Obligations.OnlyMicroOpsChangeTheDriveBits := by
  intro s t hstep hne
  rcases step_lines_cases hstep with hreset | ⟨u, ht, hu, rfl⟩ | ⟨-, hsda, hscl⟩
  · exact .inl hreset
  · refine .inr ⟨ht, u, hu, ?_⟩
    rintro rfl
    simp [perform_sample_drives] at hne
  · simp [hsda, hscl] at hne

/-- A step that is no reset leaves both memories alone or is the host's write, on an idle block, to an entry of one. -/
theorem step_memories_cases {s t : State} (hstep : step s = .next t) (hreset : s.nextTurn ≠ .reset) :
    (t.fb = s.fb ∧ t.src = s.src) ∨
      (s.nextTurn = .host ∧ s.plan = [] ∧ t.src = s.src ∧ ∃ k v rest, k < 8 ∧ s.host = .write8 (0x0010 + k) v :: rest) ∨
      (s.nextTurn = .host ∧ s.plan = [] ∧ t.fb = s.fb ∧ ∃ p v rest, p < 4096 ∧ s.host = .write8 (0x1000 + p) v :: rest) := by
  cases step_moves s t hstep with
  | wrote n v rest r ht hh hr _ hp =>
    cases r with
    | fb k =>
      obtain ⟨hk, rfl⟩ := (regOf_eq_fb_iff n k).1 hr
      exact .inr (.inl ⟨ht, hp rfl, rfl, k, v, rest, hk, hh⟩)
    | src p =>
      obtain ⟨hlt, rfl⟩ := (regOf_eq_src_iff n p).1 hr
      exact .inr (.inr ⟨ht, hp rfl, rfl, p, v, rest, hlt, hh⟩)
    | _ => exact .inl ⟨rfl, rfl⟩
  | reset ht => exact absurd ht hreset
  | _ => simp

/-- A plan in progress stays until its last micro-operation empties it. -/
theorem step_plan_cases {s t : State} (hstep : step s = .next t) (hreset : s.nextTurn ≠ .reset) (hp : s.plan ≠ []) :
    t.plan = s.plan ∨ (t.plan = [] ∧ s.upc + 1 = s.plan.length) := by
  cases step_moves s t hstep with
  | perform u ht hu =>
    by_cases hlast : s.upc + 1 = s.plan.length
    · exact .inr ⟨by simp [State.advance_last, hlast], hlast⟩
    · exact .inl (by simp [State.advance_more, hlast])
  | accepted w rest i ht hidle => exact absurd hidle hp
  | reset ht => exact absurd ht hreset
  | _ => simp

/-- Settles O54: a memory changes by a host write to it on an idle block only, so it stays while a plan runs. -/
theorem memoriesStayWhileAPlanRuns : Obligations.MemoriesStayWhileAPlanRuns := by
  intro s t hstep hreset
  have hplan := step_plan_cases hstep hreset
  rcases step_memories_cases hstep hreset with ⟨hfb, hsrc⟩ | ⟨ht, hidle, hsrc, hwrite⟩ | ⟨ht, hidle, hfb, hwrite⟩
  · exact ⟨fun hp => ⟨hfb, hsrc, hplan hp⟩, fun hne => absurd hfb hne, fun hne => absurd hsrc hne⟩
  · exact ⟨fun hp => absurd hidle hp, fun _ => ⟨ht, hwrite⟩, fun hne => absurd hsrc hne⟩
  · exact ⟨fun hp => absurd hidle hp, fun hne => absurd hfb hne, fun _ => ⟨ht, hwrite⟩⟩

/-- Settles O56: each value as `State.reset` gives it. -/
theorem resetStateIsAsGiven : Obligations.ResetStateIsAsGiven :=
  ⟨rfl, rfl, rfl, rfl, rfl, rfl, rfl, rfl, fun _ => rfl, fun _ => rfl⟩

end Sys2Proof.Machine
end

section
/-! The decoder and the encoder are inverse to each other (30_encoding.md R50 to R52, R57). A format that accepts a word says
what the word's fields are, so `decode e = .ok i` and `encode i = e` are the same statement (`decode_eq_ok_iff`), and both
round trips and the match and mask of the opcode table are read off it. -/

namespace Sys2Proof

/-- A field whose reserved high bits are zero is its low bits. -/
theorem zero_append_low {m n : Nat} {x : BitVec (m + n)} (h : x.extractLsb' n m = 0#m) :
    0#m ++ x.extractLsb' 0 n = x := by
  rw [← h, BitVec.extractLsb'_append_extractLsb']

/-- A mask of the high bits keeps them. -/
theorem high_eq_zero_of_and_mask {m n : Nat} {x : BitVec (m + n)} (h : x &&& (BitVec.allOnes m ++ 0#n) = 0#(m + n)) :
    x.extractLsb' n m = 0#m := by
  rw [← BitVec.extractLsb'_append_extractLsb' (x := x), BitVec.and_append, BitVec.and_allOnes, BitVec.and_zero,
    ← BitVec.zero_append_zero, BitVec.append_left_inj] at h
  exact h

/-- The lowest bit of a field is its one-bit field. -/
theorem ofBool_getLsbD_zero (x : BitVec 12) : BitVec.ofBool (x.getLsbD 0) = x.extractLsb' 0 1 := by
  rw [← BitVec.setWidth_one, BitVec.setWidth_eq_extractLsb' (by decide)]

theorem pack_of_fields {w : CmdWord} {op : Byte} {x y : BitVec 12} (hop : opOf w = op) (hx : xOf w = x) (hy : yOf w = y) :
    pack op x y = w := by
  rw [← hop, ← hx, ← hy, pack_fields]

/-! ## The formats on a packed word, and the word of what a format accepts -/

section Formats
variable {w : CmdWord} {op : Byte} {i j : Instr}

@[simp] theorem formatN_pack : formatN (pack op 0#12 0#12) i = .ok i := by
  simp [formatN, xOf_pack, yOf_pack]

@[simp] theorem formatV_pack (v : Byte) (f : Byte → Instr) : formatV (pack op 0#12 (0#4 ++ v)) f = .ok (f v) := by
  simp [formatV, xOf_pack, yOf_pack, BitVec.extractLsb'_append_eq_left (a := 0#4),
    BitVec.extractLsb'_append_eq_right (a := 0#4)]

@[simp] theorem formatF_pack (b : Bool) (f : Bool → Instr) :
    formatF (pack op 0#12 (0#11 ++ BitVec.ofBool b)) f = .ok (f b) := by
  simp [formatF, xOf_pack, yOf_pack, BitVec.extractLsb'_append_eq_left (a := 0#11), BitVec.getElem_append (x := 0#11)]

@[simp] theorem formatP_pack (c : Byte) (g : BitVec 3) (f : Byte → BitVec 3 → Instr) :
    formatP (pack op (0#9 ++ g) (0#4 ++ c)) f = .ok (f c g) := by
  simp [formatP, xOf_pack, yOf_pack, BitVec.extractLsb'_append_eq_left (a := 0#9),
    BitVec.extractLsb'_append_eq_left (a := 0#4), BitVec.extractLsb'_append_eq_right (a := 0#9),
    BitVec.extractLsb'_append_eq_right (a := 0#4)]

@[simp] theorem formatC_pack (n : BitVec 12) (f : BitVec 12 → Instr) : formatC (pack op 0#12 n) f = .ok (f n) := by
  simp [formatC, xOf_pack, yOf_pack]

@[simp] theorem formatS_pack (a n : BitVec 12) (f : BitVec 12 → BitVec 12 → Instr) :
    formatS (pack op a n) f = .ok (f a n) := by
  simp [formatS, xOf_pack, yOf_pack]

@[simp] theorem formatQ_pack (a : BitVec 12) (f : BitVec 12 → Instr) : formatQ (pack op a 0#12) f = .ok (f a) := by
  simp [formatQ, xOf_pack, yOf_pack]

variable (hop : opOf w = op)
include hop

theorem pack_of_formatN (h : formatN w i = .ok j) : i = j ∧ pack op 0 0 = w := by
  unfold formatN at h
  split at h <;> cases h
  next hzero => exact ⟨rfl, pack_of_fields hop hzero.1 hzero.2⟩

theorem pack_of_formatV {f : Byte → Instr} (h : formatV w f = .ok j) : ∃ v, f v = j ∧ pack op 0 (0#4 ++ v) = w := by
  unfold formatV at h
  split at h <;> cases h
  next hzero => exact ⟨_, rfl, pack_of_fields hop hzero.1 (zero_append_low hzero.2).symm⟩

theorem pack_of_formatF {f : Bool → Instr} (h : formatF w f = .ok j) :
    ∃ b, f b = j ∧ pack op 0 (0#11 ++ BitVec.ofBool b) = w := by
  unfold formatF at h
  split at h <;> cases h
  next hzero =>
    refine ⟨_, rfl, pack_of_fields hop hzero.1 ?_⟩
    rw [ofBool_getLsbD_zero]
    exact (zero_append_low hzero.2).symm

theorem pack_of_formatP {f : Byte → BitVec 3 → Instr} (h : formatP w f = .ok j) :
    ∃ c g, f c g = j ∧ pack op (0#9 ++ g) (0#4 ++ c) = w := by
  unfold formatP at h
  split at h <;> cases h
  next hzero => exact ⟨_, _, rfl, pack_of_fields hop (zero_append_low hzero.1).symm (zero_append_low hzero.2).symm⟩

theorem pack_of_formatC {f : BitVec 12 → Instr} (h : formatC w f = .ok j) : ∃ n, f n = j ∧ pack op 0 n = w := by
  unfold formatC at h
  split at h <;> cases h
  next hzero => exact ⟨_, rfl, pack_of_fields hop hzero rfl⟩

theorem pack_of_formatS {f : BitVec 12 → BitVec 12 → Instr} (h : formatS w f = .ok j) :
    ∃ a n, f a n = j ∧ pack op a n = w := by
  cases h
  exact ⟨_, _, rfl, pack_of_fields hop rfl rfl⟩

theorem pack_of_formatQ {f : BitVec 12 → Instr} (h : formatQ w f = .ok j) : ∃ a, f a = j ∧ pack op a 0 = w := by
  unfold formatQ at h
  split at h <;> cases h
  next hzero => exact ⟨_, rfl, pack_of_fields hop rfl hzero⟩

end Formats

/-! ## Decoding and encoding -/

/-- Every command is read back from its word. -/
theorem decodeWord_of_encode {i : Instr} {w : CmdWord} (h : encode i = .word w) : decodeWord w = .ok i := by
  cases i with
  | sdaLow | sdaRel | sclLow | sclRel | sdaSample | bothRel => cases h
  | _ =>
    cases h
    simp [decodeWord, opOf_pack]

/-- A word that decodes is the word of what it decodes to, format by format. -/
theorem encode_of_decodeWord {i : Instr} {w : CmdWord} (h : decodeWord w = .ok i) : encode i = .word w := by
  have hop : ∀ op : Byte, (opOf w).toNat = op.toNat → opOf w = op := fun _ => BitVec.eq_of_toNat_eq
  unfold decodeWord at h
  split at h
  case h_1 hn => obtain ⟨rfl, rfl⟩ := pack_of_formatN (hop 0x00 hn) h; rfl
  case h_2 hn => obtain ⟨v, rfl, rfl⟩ := pack_of_formatV (hop 0x01 hn) h; rfl
  case h_3 hn => obtain ⟨v, rfl, rfl⟩ := pack_of_formatV (hop 0x02 hn) h; rfl
  case h_4 hn => obtain ⟨b, rfl, rfl⟩ := pack_of_formatF (hop 0x03 hn) h; rfl
  case h_5 hn => obtain ⟨rfl, rfl⟩ := pack_of_formatN (hop 0x04 hn) h; rfl
  case h_6 hn => obtain ⟨rfl, rfl⟩ := pack_of_formatN (hop 0x10 hn) h; rfl
  case h_7 hn => obtain ⟨c, g, rfl, rfl⟩ := pack_of_formatP (hop 0x11 hn) h; rfl
  case h_8 hn => obtain ⟨n, rfl, rfl⟩ := pack_of_formatC (hop 0x12 hn) h; rfl
  case h_9 hn => obtain ⟨a, n, rfl, rfl⟩ := pack_of_formatS (hop 0x13 hn) h; rfl
  case h_10 hn => obtain ⟨v, rfl, rfl⟩ := pack_of_formatV (hop 0x20 hn) h; rfl
  case h_11 hn => obtain ⟨a, rfl, rfl⟩ := pack_of_formatQ (hop 0x21 hn) h; rfl
  case h_12 hn => obtain ⟨v, rfl, rfl⟩ := pack_of_formatV (hop 0x22 hn) h; rfl
  case h_13 hn => obtain ⟨rfl, rfl⟩ := pack_of_formatN (hop 0x23 hn) h; rfl
  case h_14 => cases h

theorem decodeWord_eq_ok_iff (w : CmdWord) (i : Instr) : decodeWord w = .ok i ↔ encode i = .word w :=
  ⟨encode_of_decodeWord, decodeWord_of_encode⟩

theorem encode_toInstr (u : Uop) : encode u.toInstr = .code u.code := by cases u <;> rfl

/-- A code that is used is the code of its micro-operation. -/
theorem code_of_uopOfCode {c : BitVec 3} {u : Uop} (h : uopOfCode c = some u) : u.code = c := by
  unfold uopOfCode at h
  split at h <;> cases h <;> exact (BitVec.eq_of_toNat_eq ‹_›).symm

theorem decode_code_eq_ok_iff (c : BitVec 3) (i : Instr) :
    decode (.code c) = .ok i ↔ ∃ u, uopOfCode c = some u ∧ u.toInstr = i := by
  cases hu : uopOfCode c <;> simp [decode, hu]

/-- Only a micro-operation is encoded as a code. -/
theorem uop_of_encode_code {c : BitVec 3} {i : Instr} (h : encode i = .code c) : ∃ u : Uop, u.toInstr = i ∧ u.code = c := by
  cases i with
  | sdaLow | sdaRel | sclLow | sclRel | sdaSample | bothRel =>
    cases h
    exact ⟨_, toInstr_of_toUop _ _ rfl, rfl⟩
  | _ => cases h

/-- What decodes to an instruction is the instruction's encoding, and nothing else. -/
theorem decode_eq_ok_iff (e : Encoded) (i : Instr) : decode e = .ok i ↔ encode i = e := by
  cases e with
  | word w => exact decodeWord_eq_ok_iff w i
  | code c =>
    rw [decode_code_eq_ok_iff]
    constructor
    · rintro ⟨u, hu, rfl⟩
      rw [encode_toInstr, code_of_uopOfCode hu]
    · intro h
      obtain ⟨u, rfl, rfl⟩ := uop_of_encode_code h
      exact ⟨u, uopOfCode_code u, rfl⟩

/-- Settles O2: the encoding of an instruction is an encoding of it. -/
theorem decodeOfEncodeIsTheInstruction : Obligations.DecodeOfEncodeIsTheInstruction :=
  fun i => (decode_eq_ok_iff _ i).2 rfl

/-- Settles O3: the other direction of the same equivalence. -/
theorem encodeOfDecodeIsTheEncoding : Obligations.EncodeOfDecodeIsTheEncoding :=
  fun e i => (decode_eq_ok_iff e i).1

/-- Settles O1: each word is the encoding of the command the vector gives it, and the six codes are read off. -/
theorem wordsOfTheSpecDecode : Obligations.WordsOfTheSpecDecode :=
  ⟨decodeWord_of_encode rfl, decodeWord_of_encode rfl, decodeWord_of_encode rfl, decodeWord_of_encode rfl,
    decodeWord_of_encode rfl, decodeWord_of_encode rfl, decodeWord_of_encode rfl, decodeWord_of_encode rfl,
    decodeWord_of_encode rfl, decodeWord_of_encode rfl, decodeWord_of_encode rfl, decodeWord_of_encode rfl,
    decodeWord_of_encode rfl, rfl⟩

/-! ## The opcode table -/

/-- Every command's word matches the row of its mnemonic. -/
theorem encode_matches_row (i : Instr) : Laws.TableRow.Statement i := by
  cases i with
  | init => exact Laws.TableRow.init
  | start v => exact Laws.TableRow.start v
  | write v => exact Laws.TableRow.write v
  | read f => exact Laws.TableRow.read f
  | stop => exact Laws.TableRow.stop
  | dinit => exact Laws.TableRow.dinit
  | cursor c g => exact Laws.TableRow.cursor c g
  | clear n => exact Laws.TableRow.clear n
  | stream a n => exact Laws.TableRow.stream a n
  | rchar v => exact Laws.TableRow.rchar v
  | rstr a => exact Laws.TableRow.rstr a
  | rdigit v => exact Laws.TableRow.rdigit v
  | rframe => exact Laws.TableRow.rframe
  | sdaLow => exact Laws.TableRow.sdaLow
  | sdaRel => exact Laws.TableRow.sdaRel
  | sclLow => exact Laws.TableRow.sclLow
  | sclRel => exact Laws.TableRow.sclRel
  | sdaSample => exact Laws.TableRow.sdaSample
  | bothRel => exact Laws.TableRow.bothRel

/-- No two rows of the table have one mnemonic. -/
theorem row_eq_of_mnemonic {r₁ r₂ : TableRow} (h₁ : r₁ ∈ opcodeTable) (h₂ : r₂ ∈ opcodeTable)
    (h : r₁.mnemonic = r₂.mnemonic) : r₁ = r₂ :=
  List.inj_on_of_nodup_map (f := TableRow.mnemonic) (by decide) h₁ h₂ h

/-- A word that matches under a mask of the whole opcode has the opcode, and zeros where the mask has ones. -/
theorem fields_of_matches {w : CmdWord} {op : Byte} {mx my : BitVec 12} (h : w &&& pack 0xFF mx my = pack op 0 0) :
    opOf w = op ∧ xOf w &&& mx = 0 ∧ yOf w &&& my = 0 := by
  have hfields : pack (opOf w &&& 0xFF) (xOf w &&& mx) (yOf w &&& my) = pack op 0 0 := by
    rw [← Laws.TableRow.pack_and, pack_fields, h]
  refine ⟨?_, ?_, ?_⟩
  · have hop := congrArg opOf hfields
    rw [opOf_pack, opOf_pack] at hop
    exact BitVec.and_allOnes.symm.trans hop
  · simpa only [xOf_pack] using congrArg xOf hfields
  · simpa only [yOf_pack] using congrArg yOf hfields

/-- A word that matches is the word of an instruction whose operand fields are the word's. -/
theorem encode_of_matches {w : CmdWord} {i : Instr} (op : Byte) (mx my : BitVec 12) {x y : BitVec 12}
    (h : w &&& pack 0xFF mx my = pack op 0 0) (he : encode i = .word (pack op x y))
    (hx : xOf w &&& mx = 0 → xOf w = x) (hy : yOf w &&& my = 0 → yOf w = y) : encode i = .word w := by
  obtain ⟨hop, hxz, hyz⟩ := fields_of_matches h
  rw [he, pack_of_fields hop (hx hxz) (hy hyz)]

theorem eq_zero_of_and_all {x : BitVec 12} (h : x &&& 0xFFF = 0) : x = 0 := BitVec.and_allOnes.symm.trans h

/-- A field whose reserved high bits are masked to zero is its low bits. -/
theorem eq_low_of_and_mask {m n : Nat} {x : BitVec (m + n)} (h : x &&& (BitVec.allOnes m ++ 0#n) = 0#(m + n)) :
    x = 0#m ++ x.extractLsb' 0 n := (zero_append_low (high_eq_zero_of_and_mask h)).symm

theorem eq_low8_of_and_mask {x : BitVec 12} (h : x &&& 0xF00 = 0) : x = 0#4 ++ x.extractLsb' 0 8 :=
  eq_low_of_and_mask (m := 4) (n := 8) h

theorem eq_low3_of_and_mask {x : BitVec 12} (h : x &&& 0xFF8 = 0) : x = 0#9 ++ x.extractLsb' 0 3 :=
  eq_low_of_and_mask (m := 9) (n := 3) h

theorem eq_low1_of_and_mask {x : BitVec 12} (h : x &&& 0xFFE = 0) : x = 0#11 ++ BitVec.ofBool (x.getLsbD 0) := by
  rw [ofBool_getLsbD_zero]
  exact eq_low_of_and_mask (m := 11) (n := 1) h

/-- A word that matches a row is the word of a command of the row, the operands read from its fields. -/
theorem exists_encode_of_matches {w : CmdWord} {row : TableRow} (hrow : row ∈ opcodeTable)
    (h : w &&& row.mask = row.value) : ∃ i, encode i = .word w ∧ i.mnemonic = row.mnemonic := by
  simp only [opcodeTable, List.mem_cons, List.not_mem_nil, or_false] at hrow
  rcases hrow with rfl | rfl | rfl | rfl | rfl | rfl | rfl | rfl | rfl | rfl | rfl | rfl | rfl
  · exact ⟨.init, encode_of_matches 0x00 0xFFF 0xFFF h rfl eq_zero_of_and_all eq_zero_of_and_all, rfl⟩
  · exact ⟨.start _, encode_of_matches 0x01 0xFFF 0xF00 h rfl eq_zero_of_and_all eq_low8_of_and_mask, rfl⟩
  · exact ⟨.write _, encode_of_matches 0x02 0xFFF 0xF00 h rfl eq_zero_of_and_all eq_low8_of_and_mask, rfl⟩
  · exact ⟨.read _, encode_of_matches 0x03 0xFFF 0xFFE h rfl eq_zero_of_and_all eq_low1_of_and_mask, rfl⟩
  · exact ⟨.stop, encode_of_matches 0x04 0xFFF 0xFFF h rfl eq_zero_of_and_all eq_zero_of_and_all, rfl⟩
  · exact ⟨.dinit, encode_of_matches 0x10 0xFFF 0xFFF h rfl eq_zero_of_and_all eq_zero_of_and_all, rfl⟩
  · exact ⟨.cursor _ _, encode_of_matches 0x11 0xFF8 0xF00 h rfl eq_low3_of_and_mask eq_low8_of_and_mask, rfl⟩
  · exact ⟨.clear _, encode_of_matches 0x12 0xFFF 0 h rfl eq_zero_of_and_all (fun _ => rfl), rfl⟩
  · exact ⟨.stream _ _, encode_of_matches 0x13 0 0 h rfl (fun _ => rfl) (fun _ => rfl), rfl⟩
  · exact ⟨.rchar _, encode_of_matches 0x20 0xFFF 0xF00 h rfl eq_zero_of_and_all eq_low8_of_and_mask, rfl⟩
  · exact ⟨.rstr _, encode_of_matches 0x21 0 0xFFF h rfl (fun _ => rfl) eq_zero_of_and_all, rfl⟩
  · exact ⟨.rdigit _, encode_of_matches 0x22 0xFFF 0xF00 h rfl eq_zero_of_and_all eq_low8_of_and_mask, rfl⟩
  · exact ⟨.rframe, encode_of_matches 0x23 0xFFF 0xFFF h rfl eq_zero_of_and_all eq_zero_of_and_all, rfl⟩

/-- Settles O4: a matching word is a word of the row, and the one row an instruction's word matches is its mnemonic's. -/
theorem decodesExactlyTheTableRows : Obligations.DecodesExactlyTheTableRows := by
  intro w row hrow
  simp only [decodeWord_eq_ok_iff]
  constructor
  · exact exists_encode_of_matches hrow
  · rintro ⟨i, hi, hm⟩
    obtain ⟨row', hrow', hm', hmatch⟩ := encode_matches_row i w hi
    obtain rfl := row_eq_of_mnemonic hrow' hrow (hm'.trans hm)
    exact hmatch

/-! ## Reserved opcodes -/

/-- With an opcode that is none of the thirteen no format applies (30_encoding.md R59). -/
theorem decodeWord_of_reserved {w : CmdWord}
    (h : (opOf w).toNat ∉ [0x00, 0x01, 0x02, 0x03, 0x04, 0x10, 0x11, 0x12, 0x13, 0x20, 0x21, 0x22, 0x23]) :
    decodeWord w = .error (.reservedOpcode (opOf w)) := by
  unfold decodeWord
  split
  case h_14 => rfl
  all_goals next hop => simp [hop] at h

end Sys2Proof
end

section
/-! Illegal words (30_encoding.md R58): what completing the issue of one does, and when RSTR's operand condition fails. -/

namespace Sys2Proof.Machine

theorem illegalWord_congr (w : CmdWord) (s t : State) (hc : t.cfg = s.cfg) (hf : t.fb = s.fb) (hs : t.src = s.src)
    (he : t.epoch = s.epoch) : IllegalWord w t ↔ IllegalWord w s := by
  simp only [IllegalWord, operandsLegal_congr _ s t hc hf hs he]

/-- Whichever condition of R58 fails, the issue sets `ILL` and nothing else. -/
theorem issueWord_of_illegal {w : CmdWord} {s : State} (h : IllegalWord w s) : issueWord w s = .next s.setIll := by
  unfold issueWord
  split
  case h_1 i hi =>
    rcases h with hnone | ⟨j, hj, hbad⟩
    · exact absurd hi (hnone i)
    · obtain rfl : i = j := Except.ok.inj (hi.symm.trans hj)
      exact (commandsAreAcceptedByTheirPlans i s (decodeWord_isCommand w i hi)).2 hbad
  case h_2 => rfl

/-- Settles O5: a word that decodes to nothing is illegal. -/
theorem reservedOpcodesAreIllegal : Obligations.ReservedOpcodesAreIllegal := by
  intro w s hreserved
  have hdecode := decodeWord_of_reserved hreserved
  exact ⟨hdecode, issueWord_of_illegal (.inl fun i => by rw [hdecode]; nofun)⟩

/-- Settles O11: the issue completes on the idle block, and the word is as illegal without the access as with it. -/
theorem illegalWordIsDroppedWhole : Obligations.IllegalWordIsDroppedWhole := by
  intro s w rest ht hp hh hill
  rw [step_issue ht hp hh]
  exact issueWord_of_illegal ((illegalWord_congr w s _ rfl rfl rfl rfl).2 hill)

/-- Settles O36: a terminator that would make the string legal stands before the bad character or nowhere. -/
theorem unrenderableStringIsIllegal : Obligations.UnrenderableStringIsIllegal := by
  intro s ptr hbad
  refine (commandsAreAcceptedByTheirPlans (.rstr ptr) s rfl).2 ?_
  rintro ⟨k, hk, hterm, hchars⟩
  rcases hbad with hnone | ⟨j, -, hbefore, hchar⟩
  · exact hnone k hk hterm
  · rcases Nat.lt_or_ge j k with hjk | hkj
    · obtain ⟨-, hlow, hhigh⟩ := hchars j hjk
      omega
    · exact hbefore k hkj hterm

end Sys2Proof.Machine
end

section
/-! Operands as bytes: CURSOR's three bytes (30_encoding.md R54), table offsets (R55) and bit pairs (R56). -/

namespace Sys2Proof

/-- Bits or'ed in below a field of high bits stand beside them. -/
theorem append_zero_or_setWidth {m n : Nat} (high : BitVec m) (low : BitVec n) :
    (high ++ 0#n) ||| low.setWidth (m + n) = high ++ low := by
  have happend (x : BitVec n) : high ++ x = high.setWidth (m + n) <<< n ||| x.setWidth (m + n) := by
    rw [← BitVec.setWidth_append_eq_shiftLeft_setWidth_or, BitVec.setWidth_eq]
  simp [happend]

/-- Where the low bits are zero, or'ing a value of the low bits is adding it. -/
theorem toNat_append_zero_or {m n : Nat} (high : BitVec m) (low : BitVec n) :
    ((high ++ 0#n) ||| low.setWidth (m + n)).toNat = (high ++ 0#n).toNat + low.toNat := by
  rw [append_zero_or_setWidth, BitVec.toNat_append, BitVec.toNat_append, ← Nat.shiftLeft_add_eq_or_of_lt low.isLt,
    BitVec.toNat_zero, Nat.or_zero]

namespace Machine

theorem toNat_low_nibble (b : Byte) : (b.extractLsb' 0 4).toNat = b.toNat % 16 := BitVec.extractLsb'_toNat 0 4 b

theorem toNat_high_nibble (b : Byte) : (b.extractLsb' 4 4).toNat = b.toNat / 16 := by
  rw [BitVec.extractLsb'_toNat, Nat.shiftRight_eq_div_pow]
  exact Nat.mod_eq_of_lt (by omega)

theorem setWidth_low_nibble (b : Byte) : (b.extractLsb' 0 4).setWidth 8 = b &&& 0x0F := by
  apply BitVec.eq_of_toNat_eq
  rw [BitVec.toNat_setWidth_of_le (by decide), toNat_low_nibble, BitVec.toNat_and]
  exact (Nat.and_two_pow_sub_one_eq_mod b.toNat 4).symm

theorem setWidth_high_nibble (b : Byte) : (b.extractLsb' 4 4).setWidth 8 = b >>> 4 := by
  apply BitVec.eq_of_toNat_eq
  rw [BitVec.toNat_setWidth_of_le (by decide), toNat_high_nibble, BitVec.toNat_ushiftRight, Nat.shiftRight_eq_div_pow]

theorem toNat_cursorLo (p : Params) (column : Byte) :
    (cursorLo p column).toNat = p.colLoOp.toNat + column.toNat % 16 :=
  (toNat_append_zero_or p.colLoHigh (column.extractLsb' 0 4)).trans (congrArg _ (toNat_low_nibble column))

theorem toNat_cursorHi (p : Params) (column : Byte) :
    (cursorHi p column).toNat = p.colHiOp.toNat + column.toNat / 16 :=
  (toNat_append_zero_or p.colHiHigh (column.extractLsb' 4 4)).trans (congrArg _ (toNat_high_nibble column))

theorem toNat_cursorPage (p : Params) (page : BitVec 3) :
    (cursorPage p page).toNat = p.pageOp.toNat + page.toNat := toNat_append_zero_or p.pageHigh page

/-- Settles O31: the word is the command's encoding, which gives the fields; the bytes are those of `uopsCursor`. -/
theorem cursorBytes : Obligations.CursorBytes := by
  intro s w column page hdecode
  have hword : pack 0x11 (0#9 ++ page) (0#4 ++ column) = w := Encoded.word.inj (encode_of_decodeWord hdecode)
  refine ⟨?column, ?page, cursorLo s.cfg column, cursorHi s.cfg column, cursorPage s.cfg page, rfl, ?lo, ?hi, rfl,
    toNat_cursorLo _ _, toNat_cursorHi _ _, toNat_cursorPage _ _⟩
  case column =>
    rw [← hword, yOf_pack]
    exact BitVec.extractLsb'_append_eq_right.symm
  case page =>
    rw [← hword, xOf_pack]
    exact BitVec.extractLsb'_append_eq_right.symm
  case lo => rw [cursorLo, setWidth_low_nibble]
  case hi => rw [cursorHi, setWidth_high_nibble]

/-- Settles O39: the offsets by computation, a pair by the library's reading of a shifted word's low bits. -/
theorem offsetsAndBitPairs : Obligations.OffsetsAndBitPairs :=
  ⟨fun _ _ => rfl, fun v => Nat.mul_comm v.toNat 3, rfl, rfl, rfl, rfl, rfl,
    fun s k _ => ⟨BitVec.setWidth_eq_extractLsb' (by decide), BitVec.setWidth_ushiftRight_eq_extractLsb⟩, fun _ => rfl⟩

end Machine
end Sys2Proof
end

section
/-! The bound on plans (30_encoding.md R66): a written byte takes at most 35 micro-operations, a transaction five more, and
no command but DINIT writes more than 24572 bytes in one. -/

namespace Sys2Proof.Machine

theorem length_flatMap_le {α β : Type} {f : α → List β} {k : Nat} (h : ∀ a, (f a).length ≤ k) (l : List α) :
    (l.flatMap f).length ≤ l.length * k := by
  rw [List.length_flatMap]
  simpa using List.sum_le_card_nsmul (l.map fun a => (f a).length) k (by simpa using fun a _ => h a)

theorem length_uopsBit_le (b : Bool) : (uopsBit b).length ≤ 4 := by cases b <;> decide

/-- Eight bits of at most four micro-operations, and the ninth pulse of three. -/
theorem length_uopsWrite_le (v : Byte) : (uopsWrite v).length ≤ 35 := by
  have hbits := length_flatMap_le (fun i => length_uopsBit_le (v.getLsbD (7 - i))) [0, 1, 2, 3, 4, 5, 6, 7]
  rw [uopsWrite, List.length_append]
  exact Nat.add_le_add_right hbits 3

theorem length_uopsStart_le (v : Byte) : (uopsStart v).length ≤ 37 :=
  Nat.add_le_add_right (length_uopsWrite_le v) 2

theorem length_uopsRead_le (flag : Bool) : (uopsRead flag).length ≤ 29 := by cases flag <;> decide

theorem length_uopsWrites_le (bs : List Byte) : (uopsWrites bs).length ≤ bs.length * 35 :=
  length_flatMap_le length_uopsWrite_le bs

/-- START, the mode byte, the bytes, STOP. -/
theorem length_txn_le (p : Params) (m : Byte) (bs : List Byte) : (txn p m bs).length ≤ (bs.length + 2) * 35 + 5 := by
  have hstart := length_uopsStart_le p.addrW
  have hmode := length_uopsWrite_le m
  have hbytes := length_uopsWrites_le bs
  have hstop : uopsStop.length = 3 := rfl
  simp only [txn, List.length_append]
  omega

@[simp] theorem length_glyph5 (p : Params) (c : Byte) : (glyph5 p c).length = 6 := rfl

@[simp] theorem length_digit64 (p : Params) (v : Byte) : (digit64 p v).length = 64 := rfl

/-- A string inside `SRC` with its terminator leaves at most 4095 characters. -/
theorem length_stringAt_le (s : State) (ptr : Nat) : ((s.stringAt ptr).getD []).length ≤ 4095 := by
  cases hs : s.stringAt ptr with
  | none => exact Nat.zero_le _
  | some cs =>
    obtain ⟨hlen, -⟩ := (stringAt_some s ptr cs).1 hs
    exact (show cs.length ≤ 4095 by omega)

/-- R66's bound is met by an RSTR over the longest string. -/
theorem length_uops_le (i : Instr) (s : State) (hi : i ≠ .dinit) : (uops i s).length ≤ 860025 := by
  have htxn (m : Byte) (bs : List Byte) (hbs : bs.length ≤ 24570) : (txn s.cfg m bs).length ≤ 860025 :=
    (length_txn_le s.cfg m bs).trans (by omega)
  have hwrites (bs : List Byte) (hbs : bs.length ≤ 64) : (uopsWrites bs).length ≤ 860025 :=
    (length_uopsWrites_le bs).trans (by omega)
  cases i with
  | dinit => exact absurd rfl hi
  | start v => exact (length_uopsStart_le v).trans (by decide)
  | write v => exact (length_uopsWrite_le v).trans (by decide)
  | read flag => exact (length_uopsRead_le flag).trans (by decide)
  | cursor column page => exact htxn _ _ (by simp)
  | clear count =>
    have hcursor : (uopsCursor s.cfg 0 0).length ≤ 180 := length_txn_le _ _ _
    have hbytes := length_txn_le s.cfg Config.datMode (List.replicate count.toNat 0x00)
    rw [List.length_replicate] at hbytes
    rw [uops, uopsClear, List.length_append]
    omega
  | stream ptr len =>
    refine htxn _ _ ?_
    rw [State.srcRange, List.length_map, List.length_range]
    omega
  | rchar v => exact hwrites _ (by simp)
  | rdigit v => exact hwrites _ (by simp)
  | rstr ptr =>
    refine htxn _ _ ?_
    have hbytes := length_flatMap_le (fun c => (length_glyph5 s.cfg c).le) ((s.stringAt ptr.toNat).getD [])
    exact hbytes.trans (Nat.mul_le_mul_right 6 (length_stringAt_le s ptr.toNat))
  | rframe =>
    refine htxn _ _ ?_
    have hentries : s.fbEntries.length = 8 := by simp [State.fbEntries, Config.fbSize]
    have hbytes := length_flatMap_le (fun v => (length_digit64 s.cfg v).le) s.fbEntries
    omega
  | init | sdaLow | sdaRel | sclLow | sclRel | sdaSample | bothRel => exact Nat.le_add_left 1 860024
  | stop => exact Nat.le_add_left 3 860022

/-- Settles O20; the bound does not need the operand condition. -/
theorem plansAreBounded : Obligations.PlansAreBounded := fun i s hi _ =>
  ⟨length_uops_le i s hi, (length_uops_le i s hi).trans_lt (by decide)⟩

end Sys2Proof.Machine
end

section
/-! Assembler lines (30_encoding.md R64, R65): what reads a field's number back, and with it every line that has operands. -/

namespace Sys2Proof.Asm

/-- The number of a field's value is read back as the value. -/
@[simp] theorem fit_toNat {w : Nat} (v : BitVec w) : fit w v.toNat = some v := by
  simp [fit, v.isLt]

/-- A line with one operand stands for the command with the value its field reads back. -/
theorem map_fit_toNat {w : Nat} (v : BitVec w) (f : BitVec w → Instr) :
    ((fit w v.toNat).map fun v => [f v]) = some [f v] := by simp

theorem bind_fit_toNat {w w' : Nat} (a : BitVec w) (b : BitVec w') (f : BitVec w → BitVec w' → Instr) :
    ((fit w a.toNat).bind fun a => (fit w' b.toNat).map fun b => [f a b]) = some [f a b] := by simp

/-- R64: a command's line expands to the command. -/
theorem expand_disassemble (p : Params) {i : Instr} {l : Line} (h : disassemble i = some l) : expand p l = some [i] := by
  cases i with
  | sdaLow | sdaRel | sclLow | sclRel | sdaSample | bothRel => cases h
  | init | stop | dinit | rframe => cases h; rfl
  | start v => cases h; exact map_fit_toNat v .start
  | write v => cases h; exact map_fit_toNat v .write
  | read f => cases h; cases f <;> rfl
  | cursor c g => cases h; exact bind_fit_toNat c g .cursor
  | clear n => cases h; exact map_fit_toNat n .clear
  | stream a n => cases h; exact bind_fit_toNat a n .stream
  | rchar v => cases h; exact map_fit_toNat v .rchar
  | rstr a => cases h; exact map_fit_toNat a .rstr
  | rdigit v => cases h; exact map_fit_toNat v .rdigit

/-- A 7-bit address with the direction bit below it, as R65 writes it. -/
theorem append_bit (a : BitVec 7) (b : BitVec 1) : a ++ b = (a.setWidth 8 <<< 1) ||| b.setWidth 8 := by
  rw [← BitVec.setWidth_append_eq_shiftLeft_setWidth_or, BitVec.setWidth_eq]

/-- R65: START_W and START_R put the direction bit below the address. -/
theorem expand_startW (p : Params) (a : BitVec 7) :
    expand p ⟨"START_W".toList, [a.toNat]⟩ = some [.start (a ++ 0#1)] := map_fit_toNat a fun a => .start (a ++ 0#1)

theorem expand_startR (p : Params) (a : BitVec 7) :
    expand p ⟨"START_R".toList, [a.toNat]⟩ = some [.start (a ++ 1#1)] := map_fit_toNat a fun a => .start (a ++ 1#1)

/-- Settles O6: the lines of the commands, the five pseudo-instructions with no operand, the two with an address. -/
theorem assemblerLineIsItsCommand : Obligations.AssemblerLineIsItsCommand := by
  refine ⟨fun p _ _ => expand_disassemble p, fun _ => ⟨rfl, rfl, rfl, rfl, rfl⟩, fun p a => ⟨?write, ?read⟩⟩
  case write => rw [expand_startW, append_bit]; rfl
  case read => rw [expand_startR, append_bit]; rfl

end Sys2Proof.Asm
end

section
/-! The line micro-operations (40_line_microops.md R70 to R77, R84): what each writes, and what it records. -/

namespace Sys2Proof

/-- The constant a micro-operation sets `DRV_SDA` to, if it sets it. -/
def Uop.drvSdaSet : Uop → Option Bool
  | .sdaLow => some true
  | .sdaRel | .bothRel => some false
  | .sclLow | .sclRel | .sdaSample => none

/-- The constant a micro-operation sets `DRV_SCL` to, if it sets it. -/
def Uop.drvSclSet : Uop → Option Bool
  | .sclLow => some true
  | .sclRel | .bothRel => some false
  | .sdaLow | .sdaRel | .sdaSample => none

namespace Machine

/-! ## Levels and the shifted byte -/

theorem lineLevel_eq_false_iff (drv env : Bool) : lineLevel drv env = false ↔ drv = true ∨ env = true := by
  rw [lineLevel, Bool.not_eq_false', Bool.or_eq_true]

/-- While the block drives the data line its level is 0. -/
theorem levelSda_of_driven {s : State} (h : s.drvSda = true) : s.levelSda = false :=
  (lineLevel_eq_false_iff _ _).2 (.inl h)

/-- A released data line has the level the environment leaves. -/
theorem levelSda_of_released {s : State} (h : s.drvSda = false) : s.levelSda = !s.envSdaLow := by
  rw [State.levelSda, h]
  rfl

theorem getLsbD_shiftIn_zero (v : Byte) (b : Bool) : (shiftIn v b).getLsbD 0 = b :=
  BitVec.getLsbD_append.trans (by simp)

theorem getLsbD_shiftIn_succ (v : Byte) (b : Bool) {j : Nat} (hj : j < 7) : (shiftIn v b).getLsbD (j + 1) = v.getLsbD j :=
  BitVec.getLsbD_append.trans (by simp [hj])

/-! ## What performing a micro-operation writes and records -/

theorem perform_drvSda (s : State) (u : Uop) : (s.perform u).drvSda = u.drvSdaSet.getD s.drvSda := by cases u <;> rfl

theorem perform_drvScl (s : State) (u : Uop) : (s.perform u).drvScl = u.drvSclSet.getD s.drvScl := by cases u <;> rfl

theorem perform_sample_rxd (s : State) : (s.perform .sdaSample).rxd = shiftIn s.rxd s.levelSda := rfl

theorem perform_sample_levelSda (s : State) : (s.perform .sdaSample).levelSda = s.levelSda := rfl

/-- Only BOTH_REL draws a release order. -/
theorem perform_draws (s : State) {u : Uop} (hu : u ≠ .bothRel) : (s.perform u).draws = s.draws := by
  cases u with
  | bothRel => exact absurd rfl hu
  | _ => rfl

/-- Every micro-operation but BOTH_REL adds to the waveform the one pair of levels it leaves. -/
theorem perform_wave (s : State) {u : Uop} (hu : u ≠ .bothRel) :
    (s.perform u).wave = s.wave ++ [(s.perform u).levels] := by
  cases u with
  | bothRel => exact absurd rfl hu
  | _ => exact congrArg (· ++ [_]) (List.append_nil s.wave)

/-- BOTH_REL adds the pairs of the drawn release order before it, where both lines were driven. -/
theorem perform_bothRel_wave (s : State) :
    (s.perform .bothRel).wave =
      s.wave ++ (if s.drvSda && s.drvScl then releasePath s (Config.releaseOrder s.draws) else []) ++
        [(s.perform .bothRel).levels] := rfl

/-- What a drive micro-operation leaves and records, `RXD` included. -/
theorem perform_drive_leaves (s : State) {u : Uop} (hsample : u ≠ .sdaSample) (hboth : u ≠ .bothRel) :
    (s.perform u).rxd = s.rxd ∧ (s.perform u).draws = s.draws ∧ (s.perform u).trace = s.trace ++ [u] ∧
      (s.perform u).wave = s.wave ++ [(s.perform u).levels] ∧ s.LineFrame (s.perform u) :=
  ⟨perform_rxd s u hsample, perform_draws s hboth, perform_trace s u, perform_wave s hboth, perform_lineFrame s u⟩

/-! ## The statements -/

/-- Settles O16: both lines by the wired-AND. -/
theorem lineLevelsAreWiredAnd : Obligations.LineLevelsAreWiredAnd := fun _ =>
  ⟨lineLevel_eq_false_iff _ _, lineLevel_eq_false_iff _ _, rfl⟩

/-- Settles O12: the drive bits and the level by the micro-operation, the rest alike for the four. -/
theorem driveMicroOpsSetTheirBit : Obligations.DriveMicroOpsSetTheirBit :=
  ⟨fun s => ⟨_, exec_toInstr .sdaLow s, rfl, rfl, rfl, perform_drive_leaves s nofun nofun⟩,
    fun s => ⟨_, exec_toInstr .sdaRel s, rfl, rfl, rfl, perform_drive_leaves s nofun nofun⟩,
    fun s => ⟨_, exec_toInstr .sclLow s, rfl, rfl, rfl, perform_drive_leaves s nofun nofun⟩,
    fun s => ⟨_, exec_toInstr .sclRel s, rfl, rfl, rfl, perform_drive_leaves s nofun nofun⟩,
    rfl, rfl, rfl, rfl⟩

/-- Settles O13: the bits of the shifted byte, and the level by the data line's drive bit. -/
theorem sampleShiftsTheDataLevelIn : Obligations.SampleShiftsTheDataLevelIn := by
  refine ⟨fun s => ?_, rfl⟩
  have hbit : (s.perform .sdaSample).rxd.getLsbD 0 = s.levelSda := getLsbD_shiftIn_zero _ _
  obtain ⟨hsda, hscl⟩ := perform_sample_drives s
  exact ⟨_, exec_toInstr .sdaSample s, hbit, fun j hj => getLsbD_shiftIn_succ _ _ hj,
    fun hdrv => hbit.trans (levelSda_of_driven hdrv), fun hdrv => hbit.trans (levelSda_of_released hdrv), hsda, hscl,
    perform_draws s nofun, perform_trace s _, perform_wave s nofun, perform_lineFrame s _⟩

/-- Settles O14: the order is the drawn one, and it shows where both lines were driven. -/
theorem bothRelReleasesInSomeOrder : Obligations.BothRelReleasesInSomeOrder := by
  refine ⟨fun s => ⟨_, Config.releaseOrder s.draws, exec_toInstr .bothRel s, rfl, rfl, rfl, perform_trace s _,
    perform_lineFrame s _, fun hsda hscl => ?_, fun hnot => ?_⟩, rfl⟩
  · rw [perform_bothRel_wave, hsda, hscl]
    rfl
  · rw [perform_bothRel_wave, if_neg (by rwa [Bool.and_eq_true]), List.append_nil]

/-- Settles O15: a micro-operation leaves a drive bit alone or sets it to its constant, and a HIGH level shifted twice into
a zero `RXD` gives 1 and then 3. -/
theorem microOpsAreTotalAndIdempotentOnDriveBits : Obligations.MicroOpsAreTotalAndIdempotentOnDriveBits := by
  refine ⟨fun u s => ?twice, fun u s s' t t' ht ht' => ?constant, fun s hlevel hrxd => ?sample⟩
  case twice =>
    refine ⟨_, _, exec_toInstr u s, exec_toInstr u _, ?_, ?_, fun hu => ?_⟩
    · simp only [perform_drvSda]; cases u.drvSdaSet <;> rfl
    · simp only [perform_drvScl]; cases u.drvSclSet <;> rfl
    · rw [perform_rxd _ u hu, perform_rxd s u hu]
  case constant =>
    obtain rfl := Host.Outcome.next.inj ((exec_toInstr u s).symm.trans ht)
    obtain rfl := Host.Outcome.next.inj ((exec_toInstr u s').symm.trans ht')
    simp only [perform_drvSda, perform_drvScl]
    exact ⟨by cases u.drvSdaSet <;> simp, by cases u.drvSclSet <;> simp⟩
  case sample =>
    refine ⟨_, _, exec_toInstr .sdaSample s, exec_toInstr .sdaSample _, ?_⟩
    rw [perform_sample_rxd, perform_sample_rxd, perform_sample_levelSda, hlevel, hrxd]
    decide

end Machine
end Sys2Proof
end

section
/-! What the environment can reach (40_line_microops.md R79, 60_exceptions.md R142): each operation of a step takes two states
that differ only in the environment's doing to two such states, so every step does. -/

namespace Sys2Proof.Machine

/-- Turns of the same shape are equal, or both are the environment's. -/
theorem Turn.sameShape_iff (x y : Turn) :
    x.sameShape y = true ↔ x = y ∨ (∃ a b, x = .env a b) ∧ ∃ c d, y = .env c d := by
  cases x <;> cases y <;> simp [Turn.sameShape]

theorem Result.Related.next {R : State → State → Prop} {s t : State} (h : R s t) : Related R (.next s) (.next t) := ⟨t, rfl, h⟩

namespace State.SameButEnv
variable {s t : State} (h : s.SameButEnv t)
include h

theorem busy_eq : s.busy = t.busy := by rw [State.busy, State.busy, h.plan]

theorem fetch_eq : s.fetch = t.fetch := by rw [State.fetch, State.fetch, h.busy_eq, h.plan, h.upc]

/-- Without a schedule whose turn it is depends on the plan alone. -/
theorem nextTurn_sameShape : s.nextTurn.sameShape t.nextTurn = true := by
  have hsched := h.sched
  rw [State.nextTurn, State.nextTurn, h.busy_eq]
  generalize s.sched = l, t.sched = m at hsched
  cases hsched with
  | nil => exact (Turn.sameShape_iff _ _).2 (.inl rfl)
  | cons hshape => exact hshape

theorem uops_eq (i : Instr) : uops i s = uops i t := uops_congr i t s h.cfg h.fb h.src h.epoch

theorem legal_eq (i : Instr) : legal i s = legal i t := by
  rw [Bool.eq_iff_iff, legal_iff, legal_iff]
  exact operandsLegal_congr i t s h.cfg h.fb h.src h.epoch

/-! ## The operations of a step -/

theorem popTurn : s.popTurn.SameButEnv t.popTurn :=
  { h with sched := by simpa using List.forall₂_drop 1 h.sched }

/-- What a sample reads goes to `RXD`; a drive bit is set to a constant, and the count of drawn orders grows. -/
theorem perform (u : Uop) : (s.perform u).SameButEnv (t.perform u) := by
  have htrace : s.trace ++ [u] = t.trace ++ [u] := congrArg (· ++ [u]) h.trace
  cases u with
  | sdaLow | sdaRel => exact { h with drvSda := rfl, trace := htrace }
  | sclLow | sclRel => exact { h with drvScl := rfl, trace := htrace }
  | sdaSample => exact { h with trace := htrace }
  | bothRel => exact { h with drvSda := rfl, drvScl := rfl, trace := htrace, draws := congrArg (· + 1) h.draws }

theorem accepted (plan : List Uop) : State.SameButEnv { s with plan := plan, upc := 0 } { t with plan := plan, upc := 0 } :=
  { h with plan := rfl, upc := rfl }

theorem setIll : s.setIll.SameButEnv t.setIll := { h with ill := rfl }

theorem advance : s.advance.SameButEnv t.advance := by
  unfold State.advance
  rw [← h.upc, ← h.plan]
  split
  · exact h.accepted []
  · exact { h with plan := rfl, upc := rfl }

theorem setHost (rest : List HostAction) : State.SameButEnv { s with host := rest } { t with host := rest } :=
  { h with host := rfl }

theorem writeReg (r : HostReg) (v : Byte) : (s.writeReg r v).SameButEnv (t.writeReg r v) := by
  cases r with
  | fb k => exact { h with fb := congrArg (Memory.write · k v) h.fb }
  | src p => exact { h with src := congrArg (Memory.write · p v) h.src }
  | _ => exact h

/-- The inputs that are set, and the pair of levels they give, are outside the relation. -/
theorem setEnv (a b c d : Bool) : (s.setEnv a b).SameButEnv (t.setEnv c d) := { h with cfg := h.cfg }

theorem resetBlock : s.resetBlock.SameButEnv t.resetBlock :=
  { h with
    drvSda := congrArg Params.resetDrvSda h.cfg
    drvScl := congrArg Params.resetDrvScl h.cfg
    plan := rfl, upc := rfl, ill := rfl, fb := rfl, src := rfl, trace := rfl
    epoch := congrArg (· + 1) h.epoch }

/-! ## The turns -/

theorem sequencerTurn_related : Result.Related SameButEnv (sequencerTurn s) (sequencerTurn t) := by
  rw [sequencerTurn, sequencerTurn, ← h.fetch_eq]
  cases s.fetch with
  | idle => exact .next h
  | uop u =>
    simp only [exec_toInstr, thenAdvance]
    exact .next (h.perform u).advance
  | outside => rfl

/-- A command's legality and plan are the same in both states. -/
theorem issueWord_related (w : CmdWord) : Result.Related SameButEnv (issueWord w s) (issueWord w t) := by
  unfold issueWord
  cases hd : decodeWord w with
  | error => exact .next h.setIll
  | ok i =>
    have hi := decodeWord_isCommand w i hd
    simp only [exec_command i _ hi, accept, ← h.legal_eq, ← h.uops_eq]
    cases legal i s with
    | true => exact .next (h.accepted _)
    | false => exact .next h.setIll

/-- What a read returns goes to the host's log; whether a write waits, and what it writes, is common to both states. -/
theorem hostTurn_related : Result.Related SameButEnv (hostTurn s) (hostTurn t) := by
  rw [hostTurn, hostTurn, ← h.host, ← h.busy_eq]
  match s.host with
  | [] => exact .next h
  | .issue w :: rest =>
    cases s.busy with
    | true => exact .next h
    | false => exact (h.setHost rest).issueWord_related w
  | .write8 n v :: rest =>
    have hwrite (r : HostReg) : SameButEnv
        (if r.waits && s.busy then s else State.writeReg { s with host := rest } r v)
        (if r.waits && s.busy then t else State.writeReg { t with host := rest } r v) := by
      split
      · exact h
      · exact (h.setHost rest).writeReg r v
    dsimp only
    match regOf n with
    | none => exact rfl
    | some r =>
      cases r with
      | cmd => exact rfl
      | _ => exact .next (hwrite _)
  | .read n :: rest =>
    dsimp only
    match regOf n with
    | none => exact rfl
    | some r => exact .next { h.setHost rest with cfg := h.cfg }

theorem step_related : Result.Related SameButEnv (step s) (step t) := by
  rw [step, step]
  obtain heq | ⟨⟨a, b, hs⟩, c, d, ht⟩ := (Turn.sameShape_iff _ _).1 h.nextTurn_sameShape
  · rw [← heq]
    cases s.nextTurn with
    | sequencer => exact h.popTurn.sequencerTurn_related
    | host => exact h.popTurn.hostTurn_related
    | env a b => exact .next (h.popTurn.setEnv a b a b)
    | reset => exact .next h.popTurn.resetBlock
  · rw [hs, ht]
    exact .next (h.popTurn.setEnv a b c d)

end State.SameButEnv

/-- Settles O22, by the kind of turn the two states have in common. -/
theorem environmentReachesOnlyRxdAndLevels : Obligations.EnvironmentReachesOnlyRxdAndLevels :=
  fun _ _ h => h.step_related

end Sys2Proof.Machine
end

section
/-! The engine's plans (41_engine.md R85 to R90): what each command sets, and how long the plans are. -/

namespace Sys2Proof.Machine

/-- Settles O17: a legal command is accepted by its plan, and these five are legal for every operand. -/
theorem engineCommandsSetTheirPlans : Obligations.EngineCommandsSetTheirPlans := fun s v f =>
  have haccept (i : Instr) (hi : i.isCommand = true) (hl : operandsLegal i s) :=
    (commandsAreAcceptedByTheirPlans i s hi).1 hl
  ⟨haccept .init rfl trivial, haccept (.write v) rfl trivial, haccept (.start v) rfl trivial,
    haccept (.read f) rfl trivial, haccept .stop rfl trivial⟩

/-- The bits of a byte in the order they are sent, bit 7 first. -/
def byteBits (v : Byte) : List Bool := [7, 6, 5, 4, 3, 2, 1, 0].map v.getLsbD

theorem uopsWrite_eq (v : Byte) : uopsWrite v = (byteBits v).flatMap uopsBit ++ uopsAckPulse := rfl

/-- The order of the bits does not matter for their number. -/
theorem popcount_eq_count (v : Byte) : popcount v = (byteBits v).count true := by
  rw [popcount, ← List.countP_eq_length_filter, List.count, byteBits, List.countP_map, ← List.countP_reverse]
  exact List.countP_congr fun i _ => by simp

/-- A bit takes three micro-operations, and a 1 bit a fourth. -/
theorem length_uopsBits (bits : List Bool) : (bits.flatMap uopsBit).length = 3 * bits.length + bits.count true := by
  induction bits with
  | nil => rfl
  | cons b bits ih =>
    rw [List.flatMap_cons, List.length_append, ih]
    cases b <;> simp [uopsBit] <;> omega

theorem length_uopsWrite (v : Byte) : (uopsWrite v).length = 27 + popcount v := by
  have hlen : (byteBits v).length = 8 := rfl
  have hack : uopsAckPulse.length = 3 := rfl
  rw [uopsWrite_eq, List.length_append, length_uopsBits, popcount_eq_count]
  omega

theorem length_uopsStart (v : Byte) : (uopsStart v).length = 29 + popcount v := by
  rw [uopsStart, List.length_append, length_uopsWrite]
  exact (Nat.add_assoc 2 27 _).symm

/-- Settles O18: the lengths by the bits of the operand, and every plan has a first micro-operation. -/
theorem enginePlanLengths : Obligations.EnginePlanLengths :=
  ⟨fun _ v => ⟨rfl, length_uopsStart v, length_uopsWrite v, rfl, rfl, rfl⟩,
    fun i s _ _ => List.length_pos_of_ne_nil (uops_ne_nil i s)⟩

end Sys2Proof.Machine
end

section
/-! Performing a plan among the turns of the environment (10_state.md R15, 41_engine.md R91, R92): what the acts of a run
leave alone, what they add to the trace, and where they leave the drive bits. -/

namespace Sys2Proof.Machine

/-- The micro-operation an act performs, if it is not the environment's. -/
def Act.toUop : Act → Option Uop
  | .uop u => some u
  | .env _ _ => none

/-- The turn an act is taken in. -/
def Act.turn : Act → Turn
  | .uop _ => .sequencer
  | .env a b => .env a b

/-- The micro-operations performed in as many turns of the sequencer as a plan is long are the plan. -/
theorem weave_toUop {turns : List Turn} {plan : List Uop} (hagents : turns.all Turn.sequencerOrEnv = true)
    (henough : turns.count .sequencer = plan.length) : (weave turns plan).filterMap Act.toUop = plan := by
  induction turns generalizing plan with
  | nil => exact (List.eq_nil_of_length_eq_zero henough.symm).symm
  | cons turn turns ih =>
    rw [List.all_cons, Bool.and_eq_true] at hagents
    obtain ⟨hturn, hagents⟩ := hagents
    cases turn with
    | sequencer =>
      cases plan with
      | nil => simp at henough
      | cons u plan => exact congrArg (u :: ·) (ih hagents (by simpa using henough))
    | env a b => exact ih hagents (by simpa using henough)
    | host => cases hturn
    | reset => cases hturn

theorem State.Ready.performed {s : State} {plan : List Uop} {turns : List Turn} (h : s.Ready plan turns) :
    (weave turns plan).filterMap Act.toUop = plan := weave_toUop h.agents h.enough

/-- Acts are woven from their turns and their micro-operations. -/
theorem weave_turn_toUop (l : List Act) : weave (l.map Act.turn) (l.filterMap Act.toUop) = l := by
  induction l with
  | nil => rfl
  | cons a l ih => cases a <;> exact congrArg (_ :: ·) ih

theorem sequencerOrEnv_turns (l : List Act) : (l.map Act.turn).all Turn.sequencerOrEnv = true := by
  induction l with
  | nil => rfl
  | cons a l ih => cases a <;> exact ih

theorem count_sequencer_turns (l : List Act) :
    (l.map Act.turn).count .sequencer = (l.filterMap Act.toUop).length := by
  induction l with
  | nil => rfl
  | cons a l ih => cases a <;> simpa [Act.turn, Act.toUop, List.filterMap_cons] using ih

/-- A run whose plan and schedule are the micro-operations and the turns of some acts is those acts. -/
theorem run_acts {s : State} (l : List Act) (hplan : s.plan = l.filterMap Act.toUop) (hupc : s.upc = 0)
    (hsched : s.sched = l.map Act.turn) : runSteps s.sched.length s = .next ((s.acts l).setPos [] 0 []) := by
  have h := run_ready s _ _ ⟨hplan, hupc, hsched, sequencerOrEnv_turns l, count_sequencer_turns l⟩
  rwa [weave_turn_toUop, ← hsched] at h

/-! ## What acts leave alone -/

theorem State.RunFrame.refl (s : State) : s.RunFrame s := ⟨rfl, rfl, fun _ => rfl, fun _ => rfl, rfl, rfl, rfl⟩

theorem State.RunFrame.trans {s t u : State} (h : s.RunFrame t) (h' : t.RunFrame u) : s.RunFrame u where
  cfg := h'.cfg.trans h.cfg
  ill := h'.ill.trans h.ill
  fb i := (h'.fb i).trans (h.fb i)
  src p := (h'.src p).trans (h.src p)
  host := h'.host.trans h.host
  hostLog := h'.hostLog.trans h.hostLog
  epoch := h'.epoch.trans h.epoch

theorem act_runFrame (s : State) (a : Act) : s.RunFrame (s.act a) := by
  cases a with
  | env a b => exact ⟨rfl, rfl, fun _ => rfl, fun _ => rfl, rfl, rfl, rfl⟩
  | uop u =>
    have h := perform_lineFrame s u
    exact ⟨h.cfg, h.ill, h.fb, h.src, h.host, h.hostLog, h.epoch⟩

theorem acts_runFrame (s : State) (l : List Act) : s.RunFrame (s.acts l) := by
  induction l generalizing s with
  | nil => exact .refl s
  | cons a l ih => exact (act_runFrame s a).trans (ih (s.act a))

/-! ## What acts write -/

theorem acts_trace (s : State) (l : List Act) : (s.acts l).trace = s.trace ++ l.filterMap Act.toUop := by
  induction l generalizing s with
  | nil => exact (List.append_nil _).symm
  | cons a l ih =>
    rw [acts_cons, ih]
    cases a with
    | env a b => rfl
    | uop u => simp [State.act, Act.toUop]

/-- Without a sample `RXD` stays. -/
theorem acts_rxd (s : State) (l : List Act) (h : Uop.sdaSample ∉ l.filterMap Act.toUop) : (s.acts l).rxd = s.rxd := by
  induction l generalizing s with
  | nil => rfl
  | cons a l ih =>
    rw [acts_cons]
    cases a with
    | env a b => exact ih _ h
    | uop u =>
      obtain ⟨hu, hl⟩ := List.ne_and_not_mem_of_not_mem_cons h
      exact (ih _ hl).trans (perform_rxd s u hu.symm)

/-- `DRV_SDA` after some micro-operations. -/
def drvSdaAfter (d : Bool) (us : List Uop) : Bool := us.foldl (fun d u => u.drvSdaSet.getD d) d

/-- `DRV_SCL` after some micro-operations. -/
def drvSclAfter (d : Bool) (us : List Uop) : Bool := us.foldl (fun d u => u.drvSclSet.getD d) d

theorem drvSdaAfter_append (d : Bool) (us vs : List Uop) :
    drvSdaAfter d (us ++ vs) = drvSdaAfter (drvSdaAfter d us) vs := List.foldl_append

theorem drvSclAfter_append (d : Bool) (us vs : List Uop) :
    drvSclAfter d (us ++ vs) = drvSclAfter (drvSclAfter d us) vs := List.foldl_append

theorem acts_drvSda (s : State) (l : List Act) :
    (s.acts l).drvSda = drvSdaAfter s.drvSda (l.filterMap Act.toUop) := by
  induction l generalizing s with
  | nil => rfl
  | cons a l ih =>
    rw [acts_cons, ih]
    cases a with
    | env a b => rfl
    | uop u => exact congrArg (drvSdaAfter · _) (perform_drvSda s u)

theorem acts_drvScl (s : State) (l : List Act) :
    (s.acts l).drvScl = drvSclAfter s.drvScl (l.filterMap Act.toUop) := by
  induction l generalizing s with
  | nil => rfl
  | cons a l ih =>
    rw [acts_cons, ih]
    cases a with
    | env a b => rfl
    | uop u => exact congrArg (drvSclAfter · _) (perform_drvScl s u)

/-- Settles O21: the run is the acts of the plan, whose micro-operations are the plan and which keep the frame. -/
theorem plansRunToTheirEnd : Obligations.PlansRunToTheirEnd := by
  intro s plan turns h
  refine ⟨_, run_ready s plan turns h, rfl, rfl, ?trace, rfl, ?frame⟩
  case trace => exact (acts_trace s _).trans (congrArg (s.trace ++ ·) (h.performed))
  case frame =>
    obtain ⟨hcfg, hill, hfb, hsrc, hhost, hlog, hepoch⟩ := acts_runFrame s (weave turns plan)
    exact ⟨hcfg, hill, hfb, hsrc, hhost, hlog, hepoch⟩

/-- A run of a plan leaves the drive bits where its micro-operations put them, and the levels that follow. -/
theorem run_ready_drives {s : State} {plan : List Uop} {turns : List Turn} (h : s.Ready plan turns) {sda scl : Bool}
    (hsda : drvSdaAfter s.drvSda plan = sda) (hscl : drvSclAfter s.drvScl plan = scl) :
    ∃ t, runSteps turns.length s = .next t ∧ t.drvSda = sda ∧ t.drvScl = scl ∧
      t.levelSda = lineLevel sda t.envSdaLow ∧ t.levelScl = lineLevel scl t.envSclLow := by
  have hdrvSda := acts_drvSda s (weave turns plan)
  have hdrvScl := acts_drvScl s (weave turns plan)
  rw [h.performed] at hdrvSda hdrvScl
  exact ⟨_, run_ready s plan turns h, hdrvSda.trans hsda, hdrvScl.trans hscl,
    congrArg (lineLevel · _) (hdrvSda.trans hsda), congrArg (lineLevel · _) (hdrvScl.trans hscl)⟩

/-- START, WRITE and READ end with the data line released and the clock line driven, whatever came before. -/
theorem drives_of_byteCommand {i : Instr} (hi : (∃ v, i = .start v) ∨ (∃ v, i = .write v) ∨ (∃ f, i = .read f))
    (s : State) (d c : Bool) : drvSdaAfter d (uops i s) = false ∧ drvSclAfter c (uops i s) = true := by
  have hend : ∃ us vs, uops i s = us ++ vs ∧ ∀ d c, drvSdaAfter d vs = false ∧ drvSclAfter c vs = true := by
    rcases hi with ⟨v, rfl⟩ | ⟨v, rfl⟩ | ⟨f, rfl⟩
    · exact ⟨[.sdaLow, .sclLow] ++ (byteBits v).flatMap uopsBit, uopsAckPulse, rfl, fun _ _ => ⟨rfl, rfl⟩⟩
    · exact ⟨(byteBits v).flatMap uopsBit, uopsAckPulse, rfl, fun _ _ => ⟨rfl, rfl⟩⟩
    · exact ⟨[], uopsRead f, rfl, fun _ _ => by cases f <;> exact ⟨rfl, rfl⟩⟩
  obtain ⟨us, vs, hplan, hvs⟩ := hend
  rw [hplan, drvSdaAfter_append, drvSclAfter_append]
  exact hvs _ _

/-- The first micro-operation of a command. -/
theorem head?_uops {i : Instr} (s : State) (hi : i.isCommand = true) :
    (uops i s).head? = some .sdaLow ∨ (uops i s).head? = some .sdaRel ∨ (uops i s).head? = some .bothRel := by
  cases i with
  | sdaLow | sdaRel | sclLow | sclRel | sdaSample | bothRel => cases hi
  | init => exact .inr (.inr rfl)
  | read f => exact .inr (.inl rfl)
  | _ => exact .inl rfl

/-- Settles O23: the drive bits by the end of each plan, the first micro-operation by its beginning. -/
theorem driveBitsOnCompletion : Obligations.DriveBitsOnCompletion := by
  refine ⟨fun i s turns h => ⟨fun hi => ?bytes, fun hi => ?released⟩, fun i s hi _ => head?_uops s hi⟩
  case bytes =>
    obtain ⟨hsda, hscl⟩ := drives_of_byteCommand hi s s.drvSda s.drvScl
    exact run_ready_drives h hsda hscl
  case released =>
    rcases hi with rfl | rfl
    · exact run_ready_drives h rfl rfl
    · exact run_ready_drives h rfl rfl

end Sys2Proof.Machine
end

section
/-! What the acts of a run show on the bus (40_line_microops.md R80, R81): a run's events are those of its acts in turn,
and one act's are those between the levels before and after it. A data change under a LOW clock has no bus meaning and is
left out. -/

namespace Sys2Proof.Machine

/-- Whether an event means anything on the bus (R80): a data change under a LOW clock does not. -/
def Event.hasMeaning : Event → Bool
  | .setup => false
  | .startCond | .stopCond | .rise _ | .fall => true

/-- The observer passes over what has no meaning. -/
theorem run_filter_hasMeaning (r : Reader) (es : List Event) : r.run (es.filter Event.hasMeaning) = r.run es := by
  induction es generalizing r with
  | nil => rfl
  | cons e es ih =>
    cases e with
    | setup => exact ih r
    | _ => rw [List.filter_cons_of_pos rfl, run_cons, run_cons, ih]

/-- From `s` to `t` the waveform grows by pairs of levels that end with `t`'s and are read as the events `es`. -/
def State.Shows (s t : State) (es : List Event) : Prop :=
  t.epoch = s.epoch ∧ ∃ pairs, t.wave = s.wave ++ pairs ∧ pairs.getLastD s.levels = t.levels ∧
    (eventsFrom (Config.simultaneous s.epoch) s.wave.length s.levels pairs).filter Event.hasMeaning = es

namespace State.Shows
variable {s t u : State} {es fs : List Event}

theorem refl (s : State) : s.Shows s [] := ⟨rfl, [], (List.append_nil _).symm, rfl, rfl⟩

theorem trans (h : s.Shows t es) (h' : t.Shows u fs) : s.Shows u (es ++ fs) := by
  obtain ⟨hepoch, pairs, hwave, hlast, rfl⟩ := h
  obtain ⟨hepoch', pairs', hwave', hlast', rfl⟩ := h'
  refine ⟨hepoch'.trans hepoch, pairs ++ pairs', by rw [hwave', hwave, List.append_assoc], ?last, ?events⟩
  case last =>
    rw [← hlast', ← hlast]
    simp [List.getLast?_append]
  case events => rw [eventsFrom_append, List.filter_append, hlast, hepoch, hwave, List.length_append]

/-- The sequencer's position and the turns show nowhere. -/
theorem setPos (h : s.Shows t es) (plan : List Uop) (upc : Nat) (turns : List Turn) :
    s.Shows (t.setPos plan upc turns) es := h

/-- The conditions and clock rises among what is shown. -/
theorem busSince_eq (h : s.Shows t es) : busSince s t = es.filter Event.onBus := by
  obtain ⟨-, pairs, hwave, -, rfl⟩ := h
  rw [busSince, hwave, List.drop_left, List.filter_filter]
  congr 1
  funext e
  cases e <;> rfl

/-- What the observer reads depends on what is shown only. -/
theorem readSince_eq (h : s.Shows t es) : readSince s t = (Reader.idle.run es).2 := by
  obtain ⟨-, pairs, hwave, -, rfl⟩ := h
  rw [readSince, hwave, List.drop_left, run_filter_hasMeaning]

end State.Shows

/-! ## One act -/

theorem act_wave (s : State) {a : Act} (ha : a ≠ .uop .bothRel) : (s.act a).wave = s.wave ++ [(s.act a).levels] := by
  cases a with
  | env a b => rfl
  | uop u => exact perform_wave s fun hu => ha (congrArg Act.uop hu)

theorem levels_of {s : State} {sda scl : Bool} (hsda : s.levelSda = sda) (hscl : s.levelScl = scl) :
    s.levels = ⟨sda, scl⟩ := by
  rw [State.levels_eq, hsda, hscl]

theorem levelScl_of_driven {s : State} (h : s.drvScl = true) : s.levelScl = false :=
  (lineLevel_eq_false_iff _ _).2 (.inl h)

/-- A clock that nobody drives is HIGH. -/
theorem levelScl_of_released {s : State} (h : s.drvScl = false) (henv : s.envSclLow = false) : s.levelScl = true := by
  rw [State.levelScl, h, henv]
  rfl

/-- An act that adds the one pair it leaves, where at most one line moves, shows what the two pairs of levels give. -/
theorem shows_act {s : State} {a : Act} (hwave : (s.act a).wave = s.wave ++ [(s.act a).levels]) {p q : Levels}
    (hp : s.levels = p) (hq : (s.act a).levels = q) {e : Option Event} (he : ∀ reading, eventOf reading p q = e) :
    s.Shows (s.act a) (e.toList.filter Event.hasMeaning) := by
  refine ⟨(act_runFrame s a).epoch, [(s.act a).levels], hwave, rfl, ?_⟩
  rw [eventsFrom_cons, eventsFrom_nil, List.append_nil, hp, hq, he]

section Rules
variable {s : State}

/-- While the block holds the clock LOW, moving the data line shows nothing, whoever moves it. -/
theorem shows_clockLow {a : Act} (h : s.drvScl = true) (h' : (s.act a).drvScl = true) : s.Shows (s.act a) [] := by
  have ha : a ≠ .uop .bothRel := by rintro rfl; cases h'
  have hbefore := levels_of rfl (levelScl_of_driven h)
  have hafter := levels_of rfl (levelScl_of_driven h')
  by_cases hsda : s.levelSda = (s.act a).levelSda
  · exact shows_act (act_wave s ha) hbefore hafter (e := none) fun _ => if_pos hsda
  · exact shows_act (act_wave s ha) hbefore hafter (e := some .setup) fun _ => if_neg hsda

/-- Releasing a clock nobody else pulls is a rise that carries the data line's level. -/
theorem shows_sclRel (h : s.drvScl = true) (henv : s.envSclLow = false) :
    s.Shows (s.perform .sclRel) [.rise s.levelSda] :=
  shows_act (act_wave s (a := .uop .sclRel) nofun) (levels_of rfl (levelScl_of_driven h))
    (levels_of (sda := s.levelSda) rfl (levelScl_of_released rfl henv)) (e := some (.rise s.levelSda)) fun _ => if_pos rfl

/-- Driving a HIGH clock LOW is a fall. -/
theorem shows_sclLow (h : s.drvScl = false) (henv : s.envSclLow = false) : s.Shows (s.perform .sclLow) [.fall] :=
  shows_act (act_wave s (a := .uop .sclLow) nofun) (levels_of rfl (levelScl_of_released h henv))
    (levels_of (sda := s.levelSda) rfl (levelScl_of_driven rfl)) (e := some .fall) fun _ => if_pos rfl

/-- Under a HIGH clock the data line's fall is a START condition, and its rise a STOP condition. -/
theorem shows_startCond (hscl : s.levelScl = true) (hsda : s.levelSda = true) :
    s.Shows (s.perform .sdaLow) [.startCond] :=
  shows_act (act_wave s (a := .uop .sdaLow) nofun) (levels_of hsda hscl) (levels_of (levelSda_of_driven rfl) hscl)
    (e := some .startCond) fun _ => rfl

theorem shows_stopCond (hscl : s.levelScl = true) (hsda : s.drvSda = true) (henv : s.envSdaLow = false) :
    s.Shows (s.perform .sdaRel) [.stopCond] :=
  shows_act (act_wave s (a := .uop .sdaRel) nofun) (levels_of (levelSda_of_driven hsda) hscl)
    (levels_of ((levelSda_of_released rfl).trans (congrArg not henv)) hscl) (e := some .stopCond) fun _ => rfl

/-- A micro-operation that moves no level shows nothing. -/
theorem shows_still {u : Uop} (hu : u ≠ .bothRel) (h : (s.perform u).levels = s.levels) : s.Shows (s.perform u) [] :=
  shows_act (act_wave s (a := .uop u) fun hc => hu (Act.uop.inj hc)) rfl h (e := none) fun r => eventOf_same r s.levels

end Rules
end Sys2Proof.Machine
end

section
/-! A byte's pulses (41_engine.md R87, R88): each bit is set up under a LOW clock and shown as a clock rise and a fall, so
the bits of a byte and its acknowledgment are nine rises. The acts between the pulses may be the environment's. -/

namespace Sys2Proof.Machine

/-- The state after some micro-operations with nothing between them. -/
def State.performAll (s : State) (us : List Uop) : State := s.acts (us.map Act.uop)

theorem performAll_cons (s : State) (u : Uop) (us : List Uop) :
    s.performAll (u :: us) = (s.perform u).performAll us := rfl

theorem performAll_append (s : State) (us vs : List Uop) :
    s.performAll (us ++ vs) = (s.performAll us).performAll vs := by
  rw [State.performAll, List.map_append, acts_append]
  rfl

theorem map_uop_toUop (us : List Uop) : (us.map Act.uop).filterMap Act.toUop = us := by
  rw [List.filterMap_map]
  exact List.filterMap_some

theorem performAll_drvSda (s : State) (us : List Uop) : (s.performAll us).drvSda = drvSdaAfter s.drvSda us :=
  (acts_drvSda s _).trans (congrArg _ (map_uop_toUop us))

theorem performAll_drvScl (s : State) (us : List Uop) : (s.performAll us).drvScl = drvSclAfter s.drvScl us :=
  (acts_drvScl s _).trans (congrArg _ (map_uop_toUop us))

theorem performAll_rxd (s : State) {us : List Uop} (h : Uop.sdaSample ∉ us) : (s.performAll us).rxd = s.rxd :=
  acts_rxd s _ ((map_uop_toUop us).symm ▸ h)

/-- What each micro-operation leaves alone, all do. -/
theorem performAll_field {α : Type} {field : State → α} (h : ∀ s u, field (s.perform u) = field s) (s : State)
    (us : List Uop) : field (s.performAll us) = field s := by
  induction us generalizing s with
  | nil => rfl
  | cons u us ih => exact (ih (s.perform u)).trans (h s u)

/-- What a list of pieces shows, each from a state that `P` holds of and that it leads back to. -/
theorem shows_acts_flatMap {α : Type} {P : State → Prop} {f : α → List Act} {g : α → List Event}
    (hpiece : ∀ a s, P s → s.Shows (s.acts (f a)) (g a) ∧ P (s.acts (f a))) (l : List α) {s : State} (hs : P s) :
    s.Shows (s.acts (l.flatMap f)) (l.flatMap g) ∧ P (s.acts (l.flatMap f)) := by
  induction l generalizing s with
  | nil => exact ⟨.refl s, hs⟩
  | cons a l ih =>
    obtain ⟨hshow, hnext⟩ := hpiece a s hs
    obtain ⟨hshows, hlast⟩ := ih hnext
    rw [List.flatMap_cons, List.flatMap_cons, acts_append]
    exact ⟨hshow.trans hshows, hlast⟩

/-- The block holds the clock LOW, nobody else pulls it, and the environment pulls the data line if `pulled`. -/
structure State.Held (s : State) (pulled : Bool) : Prop where
  drv_scl : s.drvScl = true
  env_scl : s.envSclLow = false
  env_sda : s.envSdaLow = pulled

/-- Micro-operations that end with the clock driven hold it again. -/
theorem State.Held.performAll {s : State} {pulled : Bool} (h : s.Held pulled) {us : List Uop}
    (hus : drvSclAfter true us = true) : (s.performAll us).Held pulled where
  drv_scl := by rw [performAll_drvScl, h.drv_scl, hus]
  env_scl := (performAll_field perform_envSclLow s us).trans h.env_scl
  env_sda := (performAll_field perform_envSdaLow s us).trans h.env_sda

/-- With the clock LOW, micro-operations that do not release it show nothing and keep it driven. -/
theorem shows_clockLow_performAll {us : List Uop} (hus : ∀ u ∈ us, u.drvSclSet ≠ some false) {s : State}
    (h : s.drvScl = true) : s.Shows (s.performAll us) [] ∧ (s.performAll us).drvScl = true := by
  induction us generalizing s with
  | nil => exact ⟨.refl s, h⟩
  | cons u us ih =>
    obtain ⟨hu, hus⟩ := List.forall_mem_cons.1 hus
    have hnext : (s.perform u).drvScl = true := by
      rw [perform_drvScl, h]
      cases hset : u.drvSclSet with
      | none => rfl
      | some b => cases b with
        | true => rfl
        | false => exact absurd hset hu
    obtain ⟨hshow, hlast⟩ := ih hus hnext
    exact ⟨(shows_clockLow (a := .uop u) h hnext).trans hshow, hlast⟩

/-- With the clock LOW the environment sets its inputs unseen. -/
theorem shows_setEnv {s : State} (h : s.drvScl = true) (pulled : Bool) :
    s.Shows (s.setEnv pulled false) [] ∧ (s.setEnv pulled false).Held pulled :=
  ⟨shows_clockLow (a := .env pulled false) h h, h, rfl, rfl⟩

/-! ## One pulse -/

section Pulse
variable {s : State} {pulled : Bool} (h : s.Held pulled)
include h

theorem shows_pulse : s.Shows (s.performAll [.sclRel, .sclLow]) [.rise s.levelSda, .fall] :=
  (shows_sclRel h.drv_scl h.env_scl).trans (shows_sclLow rfl h.env_scl)

theorem shows_sampledPulse : s.Shows (s.performAll uopsSample) [.rise s.levelSda, .fall] :=
  (shows_sclRel h.drv_scl h.env_scl).trans ((shows_still (u := .sdaSample) nofun rfl).trans (shows_sclLow rfl h.env_scl))

theorem levelSda_of_held : s.levelSda = (!s.drvSda && !pulled) := by
  rw [State.levelSda, h.env_sda, lineLevel, Bool.not_or]

/-- The data line is driven or released, then the clock pulses. -/
theorem shows_setup_pulse {us : List Uop} (hus : ∀ u ∈ us, u.drvSclSet ≠ some false) :
    s.Shows (s.performAll (us ++ [Uop.sclRel, .sclLow])) [.rise (!drvSdaAfter s.drvSda us && !pulled), .fall] ∧
      (s.performAll (us ++ [Uop.sclRel, .sclLow])).Held pulled := by
  obtain ⟨hsetup, hscl⟩ := shows_clockLow_performAll hus h.drv_scl
  have hheld : (s.performAll us).Held pulled := h.performAll (by rwa [performAll_drvScl, h.drv_scl] at hscl)
  rw [performAll_append, ← performAll_drvSda, ← levelSda_of_held hheld]
  exact ⟨hsetup.trans (shows_pulse hheld), hheld.performAll rfl⟩

/-- A bit is shown as it is sent, or as 0 where the line is pulled. -/
theorem shows_bit (b : Bool) :
    s.Shows (s.performAll (uopsBit b)) [.rise (b && !pulled), .fall] ∧ (s.performAll (uopsBit b)).Held pulled := by
  cases b
  · exact shows_setup_pulse h (us := [.sdaLow]) (by decide)
  · exact shows_setup_pulse h (us := [.sdaLow, .sdaRel]) (by decide)

theorem shows_ackPulse :
    s.Shows (s.performAll uopsAckPulse) [.rise !pulled, .fall] ∧ (s.performAll uopsAckPulse).Held pulled :=
  shows_setup_pulse h (us := [.sdaRel]) (by decide)

end Pulse

/-! ## The pulses of a byte -/

/-- Bits as clock rises, a fall after each. -/
def pulses (bits : List Bool) : List Event := bits.flatMap fun b => [.rise b, .fall]

theorem pulses_append (bits more : List Bool) : pulses (bits ++ more) = pulses bits ++ pulses more := List.flatMap_append

/-- The rises of pulses are their bits. -/
theorem filter_onBus_pulses (bits : List Bool) : (pulses bits).filter Event.onBus = bits.map .rise := by
  induction bits with
  | nil => rfl
  | cons b bits ih => exact congrArg (Event.rise b :: ·) ih

/-- The environment sets the data line, then micro-operations are performed. -/
def pulledAct (pulled : Bool) (us : List Uop) : List Act := .env pulled false :: us.map .uop

theorem map_turn_uops (us : List Uop) : (us.map Act.uop).map Act.turn = seqTurns us.length := by
  rw [List.map_map]
  exact List.map_const'

theorem pulledAct_turn (pulled : Bool) (us : List Uop) :
    (pulledAct pulled us).map Act.turn = .env pulled false :: seqTurns us.length :=
  congrArg (Turn.env pulled false :: ·) (map_turn_uops us)

theorem pulledAct_toUop (pulled : Bool) (us : List Uop) : (pulledAct pulled us).filterMap Act.toUop = us :=
  map_uop_toUop us

theorem length_uopsBit (b : Bool) : (uopsBit b).length = if b then 4 else 3 := by cases b <;> rfl

theorem sample_not_mem_uopsWrite (v : Byte) : Uop.sdaSample ∉ uopsWrite v := by
  have hbit (b : Bool) : Uop.sdaSample ∉ uopsBit b := by cases b <;> decide
  simp [uopsWrite_eq, hbit, uopsAckPulse]

/-! ## WRITE -/

/-- The acts of a WRITE whose data line is pulled before some pulses. -/
def writeActs (v : Byte) (pulls : List Bool) (ackPull : Bool) : List Act :=
  ((pulls.zip (byteBits v)).flatMap fun q => pulledAct q.1 (uopsBit q.2)) ++ pulledAct ackPull uopsAckPulse

theorem writeActs_turn (v : Byte) (pulls : List Bool) (ackPull : Bool) :
    (writeActs v pulls ackPull).map Act.turn = writeTurns v pulls ackPull := by
  simp only [writeActs, writeTurns, byteBits, List.map_append, List.map_flatMap, pulledAct_turn, length_uopsBit,
    List.zip_map_right, List.flatMap_map]
  rfl

theorem writeActs_toUop (v : Byte) {pulls : List Bool} (hlen : pulls.length = 8) (ackPull : Bool) :
    (writeActs v pulls ackPull).filterMap Act.toUop = uopsWrite v := by
  have hbits : (pulls.zip (byteBits v)).map Prod.snd = byteBits v := List.map_snd_zip hlen.ge
  simp only [writeActs, List.filterMap_append, List.filterMap_flatMap, pulledAct_toUop, uopsWrite_eq]
  rw [← hbits, List.flatMap_map, hbits]

/-- Each pulse shows its bit, or 0 where the line is pulled. -/
theorem shows_writeActs {s : State} (h : s.drvScl = true) (v : Byte) (pulls : List Bool) (ackPull : Bool) :
    s.Shows (s.acts (writeActs v pulls ackPull))
      (pulses ((pulls.zip (byteBits v)).map (fun q => q.2 && !q.1) ++ [!ackPull])) := by
  have hbits := shows_acts_flatMap (P := fun s => s.drvScl = true)
    (f := fun q => pulledAct q.1 (uopsBit q.2)) (g := fun q : Bool × Bool => [.rise (q.2 && !q.1), .fall])
    (fun q s hs => by
      obtain ⟨henv, hheld⟩ := shows_setEnv hs q.1
      obtain ⟨hbit, hlast⟩ := shows_bit hheld q.2
      exact ⟨henv.trans hbit, hlast.drv_scl⟩)
    (pulls.zip (byteBits v)) h
  obtain ⟨henv, hheld⟩ := shows_setEnv hbits.2 ackPull
  rw [writeActs, acts_append, pulses_append, pulses, List.flatMap_map]
  exact hbits.1.trans (henv.trans (shows_ackPulse hheld).1)

/-- Settles O25: the run is the acts of `writeActs`, whose pulses are the bits. -/
theorem writeDeliversTheByte : Obligations.WriteDeliversTheByte := by
  intro s v pulls ackPull hlen hscl hplan hupc hsched
  have hacts := writeActs_toUop v hlen ackPull
  have hdrives := drives_of_byteCommand (.inr (.inl ⟨v, rfl⟩)) s s.drvSda s.drvScl
  refine ⟨_, run_acts (writeActs v pulls ackPull) (hplan.trans hacts.symm) hupc
    (hsched.trans (writeActs_turn v pulls ackPull).symm), ?rxd, ?sda, ?scl, rfl, ?bus⟩
  case rxd => exact acts_rxd s _ (hacts ▸ sample_not_mem_uopsWrite v)
  case sda => exact (acts_drvSda s _).trans (hacts ▸ hdrives.1)
  case scl => exact (acts_drvScl s _).trans (hacts ▸ hdrives.2)
  case bus =>
    rw [((shows_writeActs hscl v pulls ackPull).setPos [] 0 []).busSince_eq,
      filter_onBus_pulses, List.map_append, byteBits, List.zip_map_right, List.map_map, List.map_map]
    rfl

/-! ## READ -/

/-- Eight bits or fewer shifted in stand in the byte, the last in bit 0. -/
theorem getLsbD_foldl_shiftIn (bits : List Bool) (v : Byte) {k : Nat} (hk : k < 8) (hlen : k < bits.length) :
    some ((bits.foldl shiftIn v).getLsbD k) = bits.reverse[k]? := by
  induction bits using List.reverseRecOn generalizing k with
  | nil => cases hlen
  | append_singleton bits b ih =>
    rw [List.foldl_append, List.reverse_append]
    cases k with
    | zero => exact congrArg some (getLsbD_shiftIn_zero _ b)
    | succ k => exact (congrArg some (getLsbD_shiftIn_succ _ b (by omega))).trans (ih (by omega) (by simpa using hlen))

/-- The end of a READ: the acknowledgment, driven LOW for an ACK, and the release of the data line. -/
def uopsReadAck (flag : Bool) : List Uop := (if flag then [Uop.sdaLow] else []) ++ [Uop.sclRel, .sclLow] ++ [Uop.sdaRel]

theorem length_uopsReadAck (flag : Bool) : (uopsReadAck flag).length = if flag then 4 else 3 := by cases flag <;> rfl

theorem uopsRead_eq (flag : Bool) :
    uopsRead flag = .sdaRel :: (List.replicate 8 uopsSample).flatten ++ uopsReadAck flag := by
  simp only [uopsRead, uopsReadAck, List.append_assoc, List.cons_append, List.nil_append]

/-- The acts of a READ whose environment presents bits and then leaves the data line at a level. -/
def readActs (bits : List Bool) (flag last : Bool) : List Act :=
  .uop .sdaRel :: (bits.flatMap fun b => pulledAct (!b) uopsSample) ++ pulledAct (!last) (uopsReadAck flag)

theorem readActs_turn (bits : List Bool) (flag last : Bool) :
    (readActs bits flag last).map Act.turn = readTurns bits flag last := by
  simp only [readActs, List.map_append, List.map_cons, List.map_flatMap, pulledAct_turn, length_uopsReadAck]
  rfl

theorem readActs_toUop {bits : List Bool} (hlen : bits.length = 8) (flag last : Bool) :
    (readActs bits flag last).filterMap Act.toUop = uopsRead flag := by
  have hsamples : (bits.flatMap fun _ => uopsSample) = (List.replicate 8 uopsSample).flatten := by
    rw [List.flatMap_def, List.map_const', hlen]
  rw [readActs, List.filterMap_append, pulledAct_toUop, uopsRead_eq]
  refine congrArg (fun us => Uop.sdaRel :: us ++ uopsReadAck flag) ?_
  simp only [List.filterMap_flatMap, pulledAct_toUop, hsamples]

/-- Presented bits are shown and shifted into `RXD`. -/
theorem shows_presented (bits : List Bool) {s : State} (hscl : s.drvScl = true) (hsda : s.drvSda = false) :
    let t := s.acts (bits.flatMap fun b => pulledAct (!b) uopsSample)
    s.Shows t (pulses bits) ∧ t.rxd = bits.foldl shiftIn s.rxd ∧ t.drvScl = true ∧ t.drvSda = false := by
  induction bits generalizing s with
  | nil => exact ⟨.refl s, rfl, hscl, hsda⟩
  | cons b bits ih =>
    intro t
    obtain ⟨henv, hheld⟩ := shows_setEnv hscl (!b)
    have hlevel : (s.setEnv (!b) false).levelSda = b := by
      rw [levelSda_of_held hheld, State.setEnv_drvSda, hsda, Bool.not_not, Bool.not_false, Bool.true_and]
    have hpulse := shows_sampledPulse hheld
    have hrxd : ((s.setEnv (!b) false).performAll uopsSample).rxd = shiftIn s.rxd b := congrArg (shiftIn s.rxd) hlevel
    rw [hlevel] at hpulse
    obtain ⟨hshows, hbyte, hlast⟩ := ih (s := (s.setEnv (!b) false).performAll uopsSample) rfl hsda
    rw [hrxd] at hbyte
    have ht : t = ((s.setEnv (!b) false).performAll uopsSample).acts
        (bits.flatMap fun b => pulledAct (!b) uopsSample) := acts_append s (pulledAct (!b) uopsSample) _
    rw [ht]
    exact ⟨henv.trans (hpulse.trans hshows), hbyte, hlast⟩

/-- The ninth pulse carries 0 for an ACK and otherwise the level left on the line. -/
theorem shows_readAck {s : State} {pulled : Bool} (h : s.Held pulled) (hsda : s.drvSda = false) (flag : Bool) :
    s.Shows (s.performAll (uopsReadAck flag)) [.rise (!flag && !pulled), .fall] ∧
      (s.performAll (uopsReadAck flag)).Held pulled := by
  have hus : ∀ u ∈ (if flag then [Uop.sdaLow] else []), u.drvSclSet ≠ some false := by cases flag <;> decide
  have hdriven : drvSdaAfter s.drvSda (if flag then [.sdaLow] else []) = flag := by
    rw [hsda]
    cases flag <;> rfl
  obtain ⟨hpulse, hheld⟩ := shows_setup_pulse h hus
  rw [hdriven] at hpulse
  rw [uopsReadAck, performAll_append]
  exact ⟨hpulse.trans (shows_clockLow (a := .uop .sdaRel) hheld.drv_scl hheld.drv_scl),
    hheld.performAll (us := [.sdaRel]) rfl⟩

theorem readAck_rxd (s : State) (flag : Bool) : (s.performAll (uopsReadAck flag)).rxd = s.rxd :=
  performAll_rxd s (by cases flag <;> decide)

/-- The pulses of a READ, and the byte it receives. -/
theorem shows_readActs {s : State} (h : s.drvScl = true) (bits : List Bool) (flag last : Bool) :
    s.Shows (s.acts (readActs bits flag last)) (pulses (bits ++ [!flag && last])) ∧
      (s.acts (readActs bits flag last)).rxd = bits.foldl shiftIn s.rxd := by
  have hrelease : s.Shows (s.perform .sdaRel) [] := shows_clockLow (a := .uop .sdaRel) h h
  obtain ⟨hbits, hrxd, hscl, hsda⟩ := shows_presented bits (s := s.perform .sdaRel) h rfl
  obtain ⟨henv, hheld⟩ := shows_setEnv hscl (!last)
  obtain ⟨hack, -⟩ := shows_readAck hheld hsda flag
  rw [Bool.not_not] at hack
  rw [readActs, List.cons_append, acts_cons, acts_append, pulses_append]
  exact ⟨hrelease.trans (hbits.trans (henv.trans hack)), (readAck_rxd _ flag).trans hrxd⟩

/-- Settles O24: the run is the acts of `readActs`; eight presented bits are the byte. -/
theorem readReceivesTheByte : Obligations.ReadReceivesTheByte := by
  intro s bits flag last hlen hscl hplan hupc hsched
  have hacts := readActs_toUop hlen flag last
  have hdrives := drives_of_byteCommand (.inr (.inr ⟨flag, rfl⟩)) s s.drvSda s.drvScl
  obtain ⟨hshows, hrxd⟩ := shows_readActs hscl bits flag last
  refine ⟨_, run_acts (readActs bits flag last) (hplan.trans hacts.symm) hupc
    (hsched.trans (readActs_turn bits flag last).symm), fun j hj => ?bit, ?sda, ?scl, rfl, ?bus⟩
  case bit =>
    refine (congrArg (fun v : Byte => some (v.getLsbD (7 - j))) hrxd).trans ?_
    rw [getLsbD_foldl_shiftIn bits _ (by omega) (by omega), List.getElem?_reverse (by omega), hlen]
    congr 1
    omega
  case sda => exact (acts_drvSda s _).trans (hacts ▸ hdrives.1)
  case scl => exact (acts_drvScl s _).trans (hacts ▸ hdrives.2)
  case bus => rw [(hshows.setPos [] 0 []).busSince_eq, filter_onBus_pulses, List.map_append, List.map_singleton]

end Sys2Proof.Machine
end

section
/-! The engine's commands with nothing between their micro-operations (41_engine.md R86 to R89, R97): the pulses of WRITE
and READ where nobody answers, START, and STOP. -/

namespace Sys2Proof.Machine

/-- A plan just accepted, with nothing scheduled, is performed. -/
theorem run_quiet {s : State} {plan : List Uop} (hplan : s.plan = plan) (hupc : s.upc = 0) (hsched : s.sched = []) :
    runSteps plan.length s = .next ((s.performAll plan).setPos [] 0 []) :=
  run_left_quiet plan s (Left_of_accepted s plan hplan hupc) hsched

/-- `shows_acts_flatMap` for pieces of a plan. -/
theorem shows_performAll_flatMap {α : Type} {P : State → Prop} {f : α → List Uop} {g : α → List Event}
    (hpiece : ∀ a s, P s → s.Shows (s.performAll (f a)) (g a) ∧ P (s.performAll (f a))) (l : List α)
    {s : State} (hs : P s) :
    s.Shows (s.performAll (l.flatMap f)) (l.flatMap g) ∧ P (s.performAll (l.flatMap f)) := by
  rw [State.performAll, List.map_flatMap]
  exact shows_acts_flatMap hpiece l hs

/-- The pulses of a frame: the bits of a byte and the acknowledgment. -/
def framePulses (frame : Byte × Bool) : List Event := pulses (byteBits frame.1 ++ [frame.2])

theorem byteBits_allOnes : byteBits 0xFF = List.replicate 8 true := by decide

/-- A WRITE to which nobody answers. -/
theorem shows_write {s : State} (h : s.Held false) (v : Byte) :
    s.Shows (s.performAll (uopsWrite v)) (framePulses (v, true)) ∧ (s.performAll (uopsWrite v)).Held false := by
  obtain ⟨hbits, hheld⟩ := shows_performAll_flatMap (P := (State.Held · false)) (g := fun b => [.rise b, .fall])
    (fun b s hs => by simpa using shows_bit hs b) (byteBits v) h
  obtain ⟨hack, hlast⟩ := shows_ackPulse hheld
  rw [uopsWrite_eq, performAll_append, framePulses, pulses_append]
  exact ⟨hbits.trans hack, hlast⟩

/-- A sample of a data line nobody drives reads 1. -/
theorem shows_sample_released {s : State} (h : s.Held false) (hsda : s.drvSda = false) :
    s.Shows (s.performAll uopsSample) [.rise true, .fall] := by
  have hlevel : s.levelSda = true := by rw [levelSda_of_held h, hsda]; rfl
  exact hlevel ▸ shows_sampledPulse h

/-- A READ to which nobody answers. -/
theorem shows_read {s : State} (h : s.Held false) (flag : Bool) :
    s.Shows (s.performAll (uopsRead flag)) (framePulses (0xFF, !flag)) ∧ (s.performAll (uopsRead flag)).Held false := by
  have hrelease : s.Shows (s.perform .sdaRel) [] := shows_clockLow (a := .uop .sdaRel) h.drv_scl h.drv_scl
  obtain ⟨hbits, hheld, hsda⟩ := shows_performAll_flatMap (P := fun s => s.Held false ∧ s.drvSda = false)
    (f := fun _ => uopsSample) (g := fun _ => [.rise true, .fall])
    (fun _ s hs => ⟨shows_sample_released hs.1 hs.2, hs.1.performAll rfl, hs.2⟩) (List.replicate 8 true)
    (s := s.perform .sdaRel) ⟨h.performAll (us := [.sdaRel]) rfl, rfl⟩
  obtain ⟨hack, hlast⟩ := shows_readAck hheld hsda flag
  rw [Bool.not_false, Bool.and_true] at hack
  rw [uopsRead_eq, ← List.flatMap_replicate (a := true) (f := fun _ => uopsSample), List.cons_append, performAll_cons,
    performAll_append, framePulses, byteBits_allOnes, pulses_append]
  exact ⟨hrelease.trans (hbits.trans hack), hlast⟩

/-- START's address byte from a clock that is LOW already: no condition (R97). -/
theorem shows_start_clockLow {s : State} (h : s.Held false) (a : Byte) :
    s.Shows (s.performAll (uopsStart a)) (framePulses (a, true)) := by
  obtain ⟨hsetup, -⟩ := shows_clockLow_performAll (us := [.sdaLow, .sclLow]) (by decide) h.drv_scl
  rw [uopsStart, performAll_append]
  exact hsetup.trans (shows_write (h.performAll rfl) a).1

/-- Settles O27: under a LOW clock START's first two steps show nothing, and the address byte is a byte. -/
theorem noRepeatedStart : Obligations.NoRepeatedStart := by
  intro s a hquiet hscl hplan hupc
  have hshows : s.Shows (s.performAll (uops (.start a) s)) (framePulses (a, true)) :=
    shows_start_clockLow ⟨hscl, hquiet.env_scl, hquiet.env_sda⟩ a
  rw [hplan]
  refine ⟨_, run_quiet hplan hupc hquiet.no_sched, rfl, ?_⟩
  rw [(hshows.setPos [] 0 []).busSince_eq, framePulses, filter_onBus_pulses]
  rfl

/-! ## STOP -/

/-- Nobody pulls a line LOW. -/
structure State.Free (s : State) : Prop where
  drv_sda : s.drvSda = false
  drv_scl : s.drvScl = false
  env_sda : s.envSdaLow = false
  env_scl : s.envSclLow = false

theorem State.Free.levelSda {s : State} (h : s.Free) : s.levelSda = true :=
  (levelSda_of_released h.drv_sda).trans (congrArg not h.env_sda)

theorem State.Free.levelScl {s : State} (h : s.Free) : s.levelScl = true :=
  levelScl_of_released h.drv_scl h.env_scl

theorem State.Free.busIdle {s : State} (h : s.Free) : s.busIdle = true := by
  rw [State.busIdle, h.levelSda, h.levelScl]
  rfl

section Stop
variable {s : State} {pulled : Bool}

/-- From a LOW clock: the clock's rise carries 0 whoever pulls the data line, and then the line is released. -/
theorem shows_stop_rise (h : s.Held pulled) : s.Shows (s.performAll [.sdaLow, .sclRel]) [.rise false] :=
  (shows_clockLow (a := .uop .sdaLow) h.drv_scl h.drv_scl).trans (shows_sclRel h.drv_scl h.env_scl)

theorem shows_stop_clockLow (h : s.Held false) :
    s.Shows (s.performAll uopsStop) [.rise false, .stopCond] ∧ (s.performAll uopsStop).Free :=
  ⟨(shows_stop_rise h).trans (shows_stopCond (levelScl_of_released rfl h.env_scl) rfl h.env_sda),
    rfl, rfl, h.env_sda, h.env_scl⟩

/-- A data line that somebody else pulls does not rise. -/
theorem levels_sdaRel_of_pulled {s : State} (henv : s.envSdaLow = true) : (s.perform .sdaRel).levels = s.levels := by
  have hlow {t : State} (h : t.envSdaLow = true) : t.levelSda = false := (lineLevel_eq_false_iff _ _).2 (.inr h)
  rw [levels_of (s := s.perform .sdaRel) (hlow henv) rfl, levels_of (s := s) (hlow henv) rfl]
  rfl

theorem shows_stop_stuck (h : s.Held true) : s.Shows (s.performAll uopsStop) [.rise false] :=
  (shows_stop_rise h).trans (shows_still (u := .sdaRel) nofun (levels_sdaRel_of_pulled h.env_sda))

/-- An empty transaction. -/
theorem shows_stop_free (h : s.Free) : s.Shows (s.performAll uopsStop) [.startCond, .stopCond] := by
  have hstill : (s.perform .sdaLow).Shows ((s.perform .sdaLow).perform .sclRel) [] :=
    shows_still nofun (by simp [State.levels, State.perform, h.drv_scl])
  exact (shows_startCond h.levelScl h.levelSda).trans
    (hstill.trans (shows_stopCond (levelScl_of_released rfl h.env_scl) rfl h.env_sda))

end Stop

/-- Settles O28: the three cases by the clock and by who pulls the data line. -/
theorem stopOnTheBus : Obligations.StopOnTheBus := by
  intro s henvScl hsched hplan hupc
  have hbus {es : List Event} (h : s.Shows (s.performAll uopsStop) es) :
      busSince s ((s.performAll uopsStop).setPos [] 0 []) = es.filter Event.onBus := State.Shows.busSince_eq h
  refine ⟨_, run_quiet hplan hupc hsched, rfl, rfl, rfl, rfl, fun hscl henvSda => ⟨?low, ?idle⟩,
    fun hsda hscl henvSda => ?empty, fun hscl henvSda => ?stuck⟩
  case low => exact hbus (shows_stop_clockLow ⟨hscl, henvScl, henvSda⟩).1
  case idle => exact State.Free.busIdle ⟨rfl, rfl, henvSda, henvScl⟩
  case empty => exact hbus (shows_stop_free ⟨hsda, hscl, henvSda, henvScl⟩)
  case stuck => exact hbus (shows_stop_stuck ⟨hscl, henvScl, henvSda⟩)

end Sys2Proof.Machine
end

section
/-! INIT on a quiet bus (41_engine.md R85, 40_line_microops.md R77, 70_reset_and_hazards.md R170). -/

namespace Sys2Proof.Machine

/-- A reading is read as what it stands for, whichever it is. -/
theorem filter_readingEvent (r : SimultaneousReading) :
    ((readingEvent r).toList.filter Event.hasMeaning).filter Event.onBus = (readingEvent r).toList := by
  cases r <;> rfl

section Init
variable {s : State} (hquiet : s.Quiet)
include hquiet

theorem levels_of_quiet : s.levels = ⟨!s.drvSda, !s.drvScl⟩ := by
  simp [State.levels, Levels.of, lineLevel, hquiet.env_sda, hquiet.env_scl]

theorem levels_bothRel : (s.perform .bothRel).levels = ⟨true, true⟩ :=
  levels_of_quiet ⟨hquiet.env_sda, hquiet.env_scl, hquiet.no_sched⟩

/-- Where both lines were driven, INIT shows what the drawn order of the releases passes through. -/
theorem shows_bothRel_driven (hsda : s.drvSda = true) (hscl : s.drvScl = true) :
    s.Shows (s.perform .bothRel) ((eventsFrom (Config.simultaneous s.epoch) s.wave.length ⟨false, false⟩
      (releasePath s (Config.releaseOrder s.draws) ++ [⟨true, true⟩])).filter Event.hasMeaning) := by
  have hwave := perform_bothRel_wave s
  have hbefore := levels_of_quiet hquiet
  rw [hsda, hscl, List.append_assoc, levels_bothRel hquiet] at hwave
  rw [hsda, hscl] at hbefore
  exact ⟨rfl, _, hwave, List.getLastD_concat.trans (levels_bothRel hquiet).symm, by rw [hbefore]; rfl⟩

/-- Where at most one line was driven, INIT shows what that line's release gives. -/
theorem shows_bothRel_one (hone : (s.drvSda && s.drvScl) = false) :
    s.Shows (s.perform .bothRel)
      ((eventOf .noEvent ⟨!s.drvSda, !s.drvScl⟩ ⟨true, true⟩).toList.filter Event.hasMeaning) := by
  have hwave := perform_bothRel_wave s
  rw [hone, if_neg Bool.false_ne_true, List.append_nil] at hwave
  exact shows_act (a := .uop .bothRel) hwave (levels_of_quiet hquiet) (levels_bothRel hquiet) fun r =>
    eventOf_one r .noEvent _ _ ((Bool.and_eq_false_iff.1 hone).imp (congrArg not) (congrArg not))

/-- The three orders of the releases on the bus (R77): data first, clock first, together. -/
theorem filter_releasePath (both : Nat → SimultaneousReading) (n : Nat) (o : ReleaseOrder) :
    let shown := ((eventsFrom both n ⟨false, false⟩ (releasePath s o ++ [⟨true, true⟩])).filter Event.hasMeaning).filter
      Event.onBus
    shown = [.rise false, .stopCond] ∨ shown = [.rise true] ∨
      ∃ reading : SimultaneousReading, shown = (readingEvent reading).toList := by
  cases o with
  | dataFirst =>
    right; left
    rw [releasePath, hquiet.env_sda, hquiet.env_scl]
    rfl
  | clockFirst =>
    left
    rw [releasePath, hquiet.env_sda, hquiet.env_scl]
    rfl
  | together =>
    right; right
    refine ⟨both n, ?_⟩
    rw [releasePath, List.nil_append, eventsFrom_cons, eventsFrom_nil, List.append_nil,
      eventOf_both _ ⟨false, false⟩ ⟨true, true⟩ nofun nofun, filter_readingEvent]

end Init

/-- Settles O29: by the drawn order where both lines were driven, and otherwise by the line that was. -/
theorem initOnTheBus : Obligations.InitOnTheBus := by
  intro s hquiet hplan hupc
  have hbus {es : List Event} (h : s.Shows (s.perform .bothRel) es) :
      busSince s ((s.perform .bothRel).setPos [] 0 []) = es.filter Event.onBus := State.Shows.busSince_eq h
  have hone (h : (s.drvSda && s.drvScl) = false) := hbus (shows_bothRel_one hquiet h)
  obtain ⟨hcfg, hill, hfb, hsrc, hhost, hlog, hepoch⟩ := act_runFrame s (.uop .bothRel)
  refine ⟨_, run_quiet hplan hupc hquiet.no_sched, rfl, rfl, rfl,
    State.Free.busIdle ⟨rfl, rfl, hquiet.env_sda, hquiet.env_scl⟩, ⟨hcfg, hill, hfb, hsrc, hhost, hlog, hepoch⟩, rfl,
    fun hsda hscl => ?both, fun hsda hscl => ?data, fun hsda hscl => ?clock, fun hsda hscl => ?neither⟩
  case both =>
    have h := filter_releasePath hquiet (Config.simultaneous s.epoch) s.wave.length (Config.releaseOrder s.draws)
    rwa [← hbus (shows_bothRel_driven hquiet hsda hscl)] at h
  all_goals
    rw [hsda, hscl] at hone
    exact hone rfl

end Sys2Proof.Machine
end

section
/-! The observer's reading of a transaction (40_line_microops.md R81, 41_engine.md R96): nine pulses in a transaction are
one byte frame, so START, frames and STOP are read as themselves. -/

namespace Sys2Proof.Machine

/-- The observer in a transaction, between two frames. -/
def Reader.betweenFrames : Reader := { inTxn := true, bits := [], held := [] }

theorem addBit_keeps (r : Reader) (b : Bool) : (r.addBit b).1.inTxn = r.inTxn ∧ (r.addBit b).1.held = r.held := by
  rw [Reader.addBit]
  split <;> exact ⟨rfl, rfl⟩

/-- In a transaction pulses are bits. -/
theorem run_pulses (bits : List Bool) {r : Reader} (hin : r.inTxn = true) (hheld : r.held = []) :
    r.run (pulses bits) = r.addBits bits := by
  induction bits generalizing r with
  | nil => rfl
  | cons b bits ih =>
    obtain ⟨hin', hheld'⟩ := addBit_keeps r b
    rw [← List.singleton_append, pulses_append, run_append, show pulses [b] = [.rise b, .fall] from rfl,
      run_pulse r b hin hheld, ih (hin'.trans hin) (hheld'.trans hheld)]
    rfl

/-- Eight bits, first bit in bit 7, are the byte (30_encoding.md R61). -/
theorem byteOfBits_byteBits (v : Byte) : byteOfBits (byteBits v) = v := by
  apply BitVec.eq_of_getLsbD_eq
  intro k hk
  have hrev : (byteBits v).reverse = (List.range 8).map v.getLsbD := rfl
  apply Option.some.inj
  rw [byteOfBits, getLsbD_foldl_shiftIn (byteBits v) 0 hk hk, hrev, List.getElem?_map, List.getElem?_range hk]
  rfl

/-- The bits that are missing from a frame and an acknowledgment complete it. -/
theorem addBits_completes (bits : List Bool) (ack : Bool) {r : Reader} (hlen : r.bits.length + bits.length = 8) :
    r.addBits (bits ++ [ack]) = ({ r with bits := [] }, [.byte (byteOfBits (r.bits ++ bits)) ack]) := by
  induction bits generalizing r with
  | nil =>
    have hfull : r.bits.length = 8 := hlen
    simp [Reader.addBits, Reader.addBit, hfull]
  | cons b bits ih =>
    have hnot : r.bits.length ≠ 8 := by rw [List.length_cons] at hlen; omega
    have hadd : r.addBit b = ({ r with bits := r.bits ++ [b] }, []) := if_neg hnot
    rw [List.cons_append, Reader.addBits, hadd]
    simp [ih (r := { r with bits := r.bits ++ [b] }) (by simpa [Nat.add_assoc, Nat.add_comm 1] using hlen)]

theorem run_framePulses (f : Byte × Bool) :
    Reader.betweenFrames.run (framePulses f) = (Reader.betweenFrames, [.byte f.1 f.2]) := by
  rw [framePulses, run_pulses _ rfl rfl, addBits_completes _ _ rfl, Reader.betweenFrames, List.nil_append,
    byteOfBits_byteBits]

theorem run_frames (fs : List (Byte × Bool)) :
    Reader.betweenFrames.run (fs.flatMap framePulses) = (Reader.betweenFrames, fs.map fun f => Item.byte f.1 f.2) := by
  induction fs with
  | nil => rfl
  | cons f fs ih =>
    rw [List.flatMap_cons, run_append, run_framePulses, ih]
    rfl

/-- The events of a transaction: a START condition, frames, and a STOP condition with the rise that belongs to it. -/
def txnEvents (fs : List (Byte × Bool)) : List Event :=
  .startCond :: .fall :: fs.flatMap framePulses ++ [Event.rise false, .stopCond]

theorem run_txnEvents (fs : List (Byte × Bool)) :
    (Reader.idle.run (txnEvents fs)).2 = .start :: (fs.map fun f => Item.byte f.1 f.2) ++ [Item.stop] := by
  have hbetween : (Reader.betweenFrames.run (fs.flatMap framePulses ++ [Event.rise false, .stopCond])).2 =
      (fs.map fun f => Item.byte f.1 f.2) ++ [Item.stop] := by
    rw [run_append, run_frames]
    rfl
  exact congrArg (Item.start :: ·) hbetween

theorem rises_frames (fs : List (Byte × Bool)) :
    (((fs.flatMap framePulses).filter Event.onBus).filter Event.isRise).length = 9 * fs.length := by
  induction fs with
  | nil => rfl
  | cons f fs ih =>
    rw [List.flatMap_cons, List.filter_append, List.filter_append, List.length_append, ih, List.length_cons,
      Nat.mul_succ, Nat.add_comm]
    rfl

/-- Nine clock rises a frame, and the one before the STOP condition. -/
theorem rises_txnEvents (fs : List (Byte × Bool)) :
    (((txnEvents fs).filter Event.onBus).filter Event.isRise).length = 9 * fs.length + 1 := by
  have hcond : (((txnEvents fs).filter Event.onBus).filter Event.isRise) =
      ((fs.flatMap framePulses ++ [Event.rise false, .stopCond]).filter Event.onBus).filter Event.isRise := rfl
  rw [hcond, List.filter_append, List.filter_append, List.length_append, rises_frames]
  rfl

/-- From a free bus START shows its condition and the address frame. -/
theorem shows_start_free {s : State} (h : s.Free) (a : Byte) :
    s.Shows (s.performAll (uopsStart a)) (.startCond :: .fall :: framePulses (a, true)) ∧
      (s.performAll (uopsStart a)).Held false := by
  have hcond : s.Shows (s.perform .sdaLow) [.startCond] := shows_startCond h.levelScl h.levelSda
  have hfall : (s.perform .sdaLow).Shows (s.performAll [.sdaLow, .sclLow]) [.fall] := shows_sclLow h.drv_scl h.env_scl
  obtain ⟨haddr, hheld⟩ := shows_write (s := s.performAll [.sdaLow, .sclLow]) ⟨rfl, h.env_scl, h.env_sda⟩ a
  rw [uopsStart, performAll_append]
  exact ⟨hcond.trans (hfall.trans haddr), hheld⟩

/-- From a free bus, START, pulses of frames and STOP show a transaction and free the bus again. -/
theorem shows_transaction {s : State} (h : s.Free) (a : Byte) {mid : List Uop} {fs : List (Byte × Bool)}
    (hmid : ∀ s : State, s.Held false →
      s.Shows (s.performAll mid) (fs.flatMap framePulses) ∧ (s.performAll mid).Held false) :
    s.Shows (s.performAll (uopsStart a ++ mid ++ uopsStop)) (txnEvents ((a, true) :: fs)) ∧
      (s.performAll (uopsStart a ++ mid ++ uopsStop)).Free := by
  obtain ⟨hstart, hheld⟩ := shows_start_free h a
  obtain ⟨hframes, hheld⟩ := hmid _ hheld
  obtain ⟨hstop, hfree⟩ := shows_stop_clockLow hheld
  rw [performAll_append, performAll_append]
  exact ⟨(hstart.trans hframes).trans hstop, hfree⟩

end Sys2Proof.Machine
end

section
/-! The host's program of command words on an idle block (10_state.md R17, R28): each command is issued and performed in
turn. -/

namespace Sys2Proof.Machine

theorem encode_command {i : Instr} (h : i.isCommand = true) : encode i = .word (wordOf i) := by
  cases i with
  | sdaLow | sdaRel | sclLow | sclRel | sdaSample | bothRel => cases h
  | _ => rfl

/-- What the host still has to do plays no part in the performing of a plan. -/
theorem performAll_setHost (s : State) (rest : List HostAction) (us : List Uop) :
    State.performAll { s with host := rest } us = { s.performAll us with host := rest } := by
  induction us generalizing s with
  | nil => rfl
  | cons u us ih =>
    rw [performAll_cons, performAll_cons, ← ih]
    cases u <;> rfl

/-- The block has no plan and no turn is listed. -/
structure State.Idle (s : State) : Prop where
  plan_eq : s.plan = []
  upc_eq : s.upc = 0
  sched_eq : s.sched = []

theorem State.Idle.setPos {s : State} (h : s.Idle) : s.setPos [] 0 [] = s := by
  obtain ⟨hplan, hupc, hsched⟩ := h
  cases s
  simp_all [State.setPos]

/-- A legal command at the head of the host's program is issued and performed. -/
theorem run_issue {s : State} (h : s.Idle) {i : Instr} {rest : List HostAction}
    (hh : s.host = .issue (wordOf i) :: rest) (hi : i.isCommand = true) (hl : operandsLegal i s) :
    runSteps ((uops i s).length + 1) s = .next { s.performAll (uops i s) with host := rest } := by
  have hturn : s.nextTurn = .host := by simp [State.nextTurn, h.sched_eq, State.busy, h.plan_eq]
  have hstep : step s = .next (State.setPos { s with host := rest } (uops i s) 0 []) := by
    have hlegal : operandsLegal i { s.popTurn with host := rest } := (operandsLegal_congr i s _ rfl rfl rfl rfl).2 hl
    have hplan : uops i { s.popTurn with host := rest } = uops i s := uops_congr i s _ rfl rfl rfl rfl
    have htail : s.sched.tail = [] := congrArg List.tail h.sched_eq
    rw [step_issue_decoded hturn h.plan_eq hh (decodeWord_of_encode (encode_command hi)),
      (commandsAreAcceptedByTheirPlans i _ hi).1 hlegal, hplan, State.setPos, ← htail]
    rfl
  have hidle : State.Idle { s with host := rest } := ⟨h.plan_eq, h.upc_eq, h.sched_eq⟩
  have hrun := run_quiet (s := State.setPos { s with host := rest } (uops i s) 0 []) rfl rfl rfl
  rw [State.performAll, acts_setPos, setPos_setPos, ← acts_setPos, hidle.setPos] at hrun
  exact (runSteps_succ _ _ _ hstep).trans (hrun.trans (congrArg _ (performAll_setHost s rest (uops i s))))

/-- A program of legal commands is performed to its end. -/
theorem run_program (cs : List Instr) {s : State} (h : s.Idle) (hh : s.host = cs.map fun i => .issue (wordOf i))
    (hlegal : ∀ c ∈ cs, c.isCommand = true ∧ operandsLegal c s) :
    ∃ n, runSteps n s = .next { s.performAll (cs.flatMap fun c => uops c s) with host := [] } := by
  induction cs generalizing s with
  | nil => exact ⟨0, by rw [runSteps_zero, ← show s.host = [] from hh]; rfl⟩
  | cons c cs ih =>
    obtain ⟨⟨hc, hl⟩, hlegal⟩ := List.forall_mem_cons.1 hlegal
    have hrun := run_issue h (rest := cs.map fun i => .issue (wordOf i)) hh hc hl
    generalize hplan : uops c s = plan at hrun
    have hcfg := performAll_field perform_cfg s plan
    have hfb := performAll_field perform_fb s plan
    have hsrc := performAll_field perform_src s plan
    have hepoch := performAll_field perform_epoch s plan
    obtain ⟨n, hn⟩ := ih (s := { s.performAll plan with host := cs.map fun i => .issue (wordOf i) })
      ⟨(performAll_field perform_plan s plan).trans h.plan_eq, (performAll_field perform_upc s plan).trans h.upc_eq,
        (performAll_field perform_sched s plan).trans h.sched_eq⟩ rfl
      fun c hc => ⟨(hlegal c hc).1, (operandsLegal_congr c s _ hcfg hfb hsrc hepoch).2 (hlegal c hc).2⟩
    have hplans : (cs.flatMap fun c => uops c { s.performAll plan with host := cs.map fun i => .issue (wordOf i) }) =
        cs.flatMap fun c => uops c s := congrArg (cs.flatMap ·) (funext fun c => uops_congr c s _ hcfg hfb hsrc hepoch)
    refine ⟨plan.length + 1 + n, ?_⟩
    rw [runSteps_add _ _ _ _ hrun, hn, hplans, performAll_setHost, List.flatMap_cons, hplan, performAll_append]

/-- WRITEs and READs to which nobody answers show one frame each, the one the observer is to read. -/
theorem shows_dataCommands {cs : List Instr} (hcs : ∀ c ∈ cs, (∃ v, c = .write v) ∨ (∃ f, c = .read f)) (s₀ : State) :
    ∃ fs : List (Byte × Bool), cs.flatMap framesOf = (fs.map fun f => Item.byte f.1 f.2) ∧ fs.length = cs.length ∧
      ∀ s : State, s.Held false → s.Shows (s.performAll (cs.flatMap fun c => uops c s₀)) (fs.flatMap framePulses) ∧
        (s.performAll (cs.flatMap fun c => uops c s₀)).Held false := by
  induction cs with
  | nil => exact ⟨[], rfl, rfl, fun s h => ⟨.refl s, h⟩⟩
  | cons c cs ih =>
    obtain ⟨hc, hcs⟩ := List.forall_mem_cons.1 hcs
    obtain ⟨fs, hitems, hlen, hshows⟩ := ih hcs
    have hone : ∃ f : Byte × Bool, framesOf c = [.byte f.1 f.2] ∧
        ∀ s : State, s.Held false →
          s.Shows (s.performAll (uops c s₀)) (framePulses f) ∧ (s.performAll (uops c s₀)).Held false := by
      rcases hc with ⟨v, rfl⟩ | ⟨flag, rfl⟩
      · exact ⟨(v, true), rfl, fun s h => shows_write h v⟩
      · exact ⟨(0xFF, !flag), rfl, fun s h => shows_read h flag⟩
    obtain ⟨f, hf, hshow⟩ := hone
    refine ⟨f :: fs, by rw [List.flatMap_cons, hf, hitems]; rfl, congrArg (· + 1) hlen, fun s h => ?_⟩
    obtain ⟨hfirst, hheld⟩ := hshow s h
    obtain ⟨hrest, hlast⟩ := hshows _ hheld
    rw [List.flatMap_cons, List.flatMap_cons, performAll_append]
    exact ⟨hfirst.trans hrest, hlast⟩

/-- Settles O26: the program's plans in order are a transaction of the address frame and one frame for each command. -/
theorem framingOfACallersTransaction : Obligations.FramingOfACallersTransaction := by
  intro s a cs hcs hquiet hsda hscl hplan hupc hh
  have hlegal : ∀ c ∈ (Instr.start a :: cs) ++ [Instr.stop], c.isCommand = true ∧ operandsLegal c s := by
    intro c hc
    simp only [List.mem_append, List.mem_cons, List.not_mem_nil, or_false] at hc
    rcases hc with (rfl | hc) | rfl
    · exact ⟨rfl, trivial⟩
    · rcases hcs c hc with ⟨v, rfl⟩ | ⟨f, rfl⟩ <;> exact ⟨rfl, trivial⟩
    · exact ⟨rfl, trivial⟩
  obtain ⟨n, hrun⟩ := run_program _ ⟨hplan, hupc, hquiet.no_sched⟩ hh hlegal
  obtain ⟨fs, hitems, hlen, hframes⟩ := shows_dataCommands hcs s
  obtain ⟨hshows, hfree⟩ := shows_transaction ⟨hsda, hscl, hquiet.env_sda, hquiet.env_scl⟩ a hframes
  have hplans : ((Instr.start a :: cs) ++ [Instr.stop]).flatMap (fun c => uops c s) =
      uopsStart a ++ (cs.flatMap fun c => uops c s) ++ uopsStop := by
    rw [List.flatMap_append]
    simp [uops]
  rw [hplans] at hrun
  generalize uopsStart a ++ (cs.flatMap fun c => uops c s) ++ uopsStop = plan at *
  have hshows' : s.Shows { s.performAll plan with host := [] } (txnEvents ((a, true) :: fs)) := hshows
  refine ⟨n, _, hrun, ?ended, hfree.busIdle, performAll_field perform_ill s plan, ?items, ?rises⟩
  case ended =>
    have hidle : (s.performAll plan).plan = [] := (performAll_field perform_plan s plan).trans hplan
    simp [State.runEnded, State.busy, hidle]
  case items =>
    rw [hshows'.readSince_eq, run_txnEvents, hitems]
    rfl
  case rises => rw [hshows'.busSince_eq, rises_txnEvents, List.length_cons, hlen]

end Sys2Proof.Machine
end

section
/-! The display's transactions (42_display.md R100 to R106): START to `ADDR_W`, the mode byte and the bytes as WRITEs, STOP.
From that shape follow a plan's length, what the observer reads, and how a command that frames itself leaves the bus. -/

namespace Sys2Proof.Machine

/-- The mode byte is one more written byte. -/
theorem txn_eq (p : Params) (m : Byte) (bs : List Byte) :
    txn p m bs = uopsStart p.addrW ++ uopsWrites (m :: bs) ++ uopsStop := by
  rw [txn, uopsWrites, uopsWrites, List.flatMap_cons, List.append_assoc (uopsStart p.addrW)]

/-! ## Lengths -/

theorem length_uopsWrites (bs : List Byte) : (uopsWrites bs).length = 27 * bs.length + (bs.map popcount).sum := by
  induction bs with
  | nil => rfl
  | cons b bs ih =>
    have hcons : (uopsWrites (b :: bs)).length = (uopsWrite b).length + (uopsWrites bs).length := List.length_append
    rw [hcons, ih, length_uopsWrite, List.length_cons, List.map_cons, List.sum_cons]
    omega

/-- Settles O19: START, one byte more than the listed ones, STOP. -/
theorem transactionLength : Obligations.TransactionLength := by
  intro p m bs
  have hstop : uopsStop.length = 3 := rfl
  rw [txn_eq, List.length_append, List.length_append, length_uopsStart, length_uopsWrites, hstop, List.length_cons,
    List.map_cons, List.sum_cons]
  omega

/-! ## The plans of the four commands -/

/-- Settles O30: each command is accepted by its plan when it is legal, and only a STREAM can be illegal. -/
theorem displayCommandsSetTheirPlans : Obligations.DisplayCommandsSetTheirPlans := by
  intro s
  have haccept (i : Instr) (hi : i.isCommand = true) (hl : operandsLegal i s) :
      exec i s = .next { s with plan := uops i s, upc := 0 } := (commandsAreAcceptedByTheirPlans i s hi).1 hl
  refine ⟨haccept .dinit rfl trivial, fun column page => ?cursor, fun count => ?clear,
    fun ptr len hfits => haccept (.stream ptr len) rfl hfits, fun ptr len hpast => ?past⟩
  case cursor =>
    rw [haccept (.cursor column page) rfl trivial, ← setWidth_low_nibble, ← setWidth_high_nibble]
    rfl
  case clear =>
    have hzeros : (List.range count.toNat).map (fun _ => (0x00 : Byte)) = List.replicate count.toNat 0x00 := by
      rw [List.map_const', List.length_range]
    rw [haccept (.clear count) rfl trivial, hzeros]
    rfl
  case past => exact (commandsAreAcceptedByTheirPlans (.stream ptr len) s rfl).2 (Nat.not_le.2 hpast)

/-! ## Commands that frame themselves -/

/-- A plan that begins with START to `a`, ends with STOP, and samples nothing. -/
structure SelfFramed (a : Byte) (plan : List Uop) : Prop where
  framing : ∃ mid, plan = uopsStart a ++ mid ++ uopsStop
  no_sample : Uop.sdaSample ∉ plan

theorem sample_not_mem_uopsWrites (bs : List Byte) : Uop.sdaSample ∉ uopsWrites bs := by
  simp [uopsWrites, sample_not_mem_uopsWrite]

theorem sample_not_mem_uopsStart (a : Byte) : Uop.sdaSample ∉ uopsStart a := by
  simp [uopsStart, sample_not_mem_uopsWrite]

theorem sample_not_mem_uopsStop : Uop.sdaSample ∉ uopsStop := by decide

theorem selfFramed_txn (p : Params) (m : Byte) (bs : List Byte) : SelfFramed p.addrW (txn p m bs) where
  framing := ⟨uopsWrites (m :: bs), txn_eq p m bs⟩
  no_sample := by
    simp [txn_eq, sample_not_mem_uopsStart, sample_not_mem_uopsWrites, sample_not_mem_uopsStop]

theorem SelfFramed.append {a : Byte} {plan more : List Uop} (h : SelfFramed a plan) (h' : SelfFramed a more) :
    SelfFramed a (plan ++ more) where
  framing := by
    obtain ⟨mid, rfl⟩ := h.framing
    obtain ⟨mid', rfl⟩ := h'.framing
    exact ⟨mid ++ uopsStop ++ uopsStart a ++ mid', by simp only [List.append_assoc]⟩
  no_sample := List.not_mem_append h.no_sample h'.no_sample

/-- Each of the six commands is a transaction; CLEAR is two. -/
theorem selfFramed_uops {i : Instr} (hi : i = .dinit ∨ (∃ c g, i = .cursor c g) ∨ (∃ n, i = .clear n) ∨
    (∃ a n, i = .stream a n) ∨ (∃ a, i = .rstr a) ∨ i = .rframe) (s : State) : SelfFramed s.cfg.addrW (uops i s) := by
  rcases hi with rfl | ⟨column, page, rfl⟩ | ⟨count, rfl⟩ | ⟨ptr, len, rfl⟩ | ⟨ptr, rfl⟩ | rfl
  case inr.inr.inl => exact (selfFramed_txn _ _ _).append (selfFramed_txn _ _ _)
  all_goals exact selfFramed_txn _ _ _

/-- STOP releases both lines, whatever came before. -/
theorem SelfFramed.drives {a : Byte} {plan : List Uop} (h : SelfFramed a plan) (d c : Bool) :
    drvSdaAfter d plan = false ∧ drvSclAfter c plan = false := by
  obtain ⟨mid, rfl⟩ := h.framing
  rw [drvSdaAfter_append, drvSclAfter_append]
  exact ⟨rfl, rfl⟩

/-- A run of a plan without a sample leaves `RXD`. -/
theorem run_ready_rxd {s t : State} {plan : List Uop} {turns : List Turn} (h : s.Ready plan turns)
    (hsample : Uop.sdaSample ∉ plan) (hrun : runSteps turns.length s = .next t) : t.rxd = s.rxd := by
  obtain rfl := Host.Outcome.next.inj ((run_ready s plan turns h).symm.trans hrun)
  exact acts_rxd s (weave turns plan) (h.performed.symm ▸ hsample)

/-- Settles O32: the plan frames itself, so its run ends with both lines released and leaves `RXD`. -/
theorem framedCommandsLeaveAnIdleBus : Obligations.FramedCommandsLeaveAnIdleBus := by
  intro i s turns hi
  have hframed := selfFramed_uops hi s
  refine ⟨hframed.framing, hframed.no_sample, fun h => ?_⟩
  obtain ⟨hsda, hscl⟩ := hframed.drives s.drvSda s.drvScl
  obtain ⟨t, hrun, hplan, -, -, -, hframe⟩ := plansRunToTheirEnd s _ turns h
  obtain ⟨t', hrun', hdrvSda, hdrvScl, hlevelSda, hlevelScl⟩ := run_ready_drives h hsda hscl
  obtain rfl : t = t' := Host.Outcome.next.inj (hrun.symm.trans hrun')
  exact ⟨t, hrun, hplan, hdrvSda, hdrvScl, hlevelSda, hlevelScl,
    fun henvSda henvScl => State.Free.busIdle ⟨hdrvSda, hdrvScl, henvSda, henvScl⟩,
    run_ready_rxd h hframed.no_sample hrun, hframe⟩

/-! ## What the observer reads -/

/-- WRITEs to which nobody answers show one frame each. -/
theorem shows_writes {s : State} (h : s.Held false) (bs : List Byte) :
    s.Shows (s.performAll (uopsWrites bs)) ((bs.map fun b => (b, true)).flatMap framePulses) ∧
      (s.performAll (uopsWrites bs)).Held false := by
  rw [List.flatMap_map]
  exact shows_performAll_flatMap (fun b _ hs => shows_write hs b) bs h

/-- Settles O33: on a free bus the plan shows a transaction of the address, the mode byte and the bytes. -/
theorem transactionIsReadByTheObserver : Obligations.TransactionIsReadByTheObserver := by
  intro s m bs hquiet hsda hscl hplan hupc
  obtain ⟨hshows, hfree⟩ := shows_transaction ⟨hsda, hscl, hquiet.env_sda, hquiet.env_scl⟩ s.cfg.addrW
    fun _ hs => shows_writes hs (m :: bs)
  rw [← txn_eq, ← hplan] at hshows hfree
  refine ⟨_, run_quiet rfl hupc hquiet.no_sched, rfl, hfree.busIdle, ?_⟩
  rw [(hshows.setPos [] 0 []).readSince_eq, run_txnEvents]
  simp

end Sys2Proof.Machine
end

section
/-! The glyphs (43_renderer.md R111, R115 to R118): what a legal code or digit value reads from the font tables, and how the
bytes of a glyph's columns are stretched. -/

namespace Sys2Proof
namespace Params

/-- Inside the table a read returns the table's byte. -/
theorem font5_getElem? (p : Params) {a : Nat} (h : a < p.font5.length) : p.font5[a]? = some (p.readFont5 a) := by
  rw [readFont5, List.getElem?_eq_getElem h, Option.getD_some]

theorem font3_getElem? (p : Params) {a : Nat} (h : a < p.font3.length) : p.font3[a]? = some (p.readFont3 a) := by
  rw [readFont3, List.getElem?_eq_getElem h, Option.getD_some]

/-- The table begins with the documented glyph of digit value 0. -/
theorem font3_eq (p : Params) :
    p.font3 = Config.digit0.toList ++ (p.glyphs3.toList ++ p.glyphs3More).flatMap Vector.toList := List.flatMap_cons

/-- The bytes of the documented glyph are read whatever the rest of the table is. -/
theorem readFont3_digit0 (p : Params) {j : Nat} (hj : j < 3) : p.readFont3 j = Config.digit0[j] := by
  have hlen : j < Config.digit0.toList.length := hj
  rw [readFont3, font3_eq, List.getElem?_append_left hlen, List.getElem?_eq_getElem hlen, Option.getD_some,
    Vector.getElem_toList]

end Params

namespace Machine

/-! ## Characters -/

theorem glyph5_getElem?_succ (p : Params) (c : Byte) {j : Nat} (hj : j < 5) :
    (glyph5 p c)[j + 1]? = some (p.readFont5 (off5 c + j)) := by
  have hglyph : glyph5 p c = 0x00 :: (List.range 5).map fun j => p.readFont5 (off5 c + j) := rfl
  rw [hglyph, List.getElem?_cons_succ, List.getElem?_map, List.getElem?_range hj, Option.map_some]

/-- Settles O37: a code the font has is the number of one of its glyphs, so the five reads are inside the table. -/
theorem glyphIsSpacerAndFiveBytes : Obligations.GlyphIsSpacerAndFiveBytes := by
  intro p c hlow hhigh
  refine ⟨p.length_font5, length_glyph5 p c, rfl, fun j hj => ?_⟩
  have hinside : (c.toNat - 32) * 5 + j < p.font5.length := by
    rw [p.length_font5]
    omega
  exact ⟨hinside, (glyph5_getElem?_succ p c hj).trans (p.font5_getElem? hinside).symm⟩

/-! ## Stretching -/

/-- Each bit of a pair fills a nibble. -/
theorem getLsbD_stretch (p : BitVec 2) {r : Nat} (hr : r < 8) : (stretch p).getLsbD r = p.getLsbD (r / 4) := by
  decide +revert

theorem pair_zero (b : Byte) : pair b 0 = b.setWidth 2 := congrArg (BitVec.setWidth 2) (BitVec.ushiftRight_zero b)

theorem pair_eq_extractLsb' (s : Byte) (k : Nat) : pair s k = s.extractLsb' (2 * k) 2 :=
  BitVec.setWidth_ushiftRight_eq_extractLsb

theorem quad_eq (s : Byte) : quad s = [0, 1, 2, 3].map fun k => stretch (s.extractLsb' (2 * k) 2) :=
  List.map_congr_left fun k _ => congrArg stretch (pair_eq_extractLsb' s k)

theorem getLsbD_append_byte_low {w r : Nat} (x : BitVec w) (b : Byte) (hr : r < 8) :
    (x ++ b).getLsbD r = b.getLsbD r := by
  rw [BitVec.getLsbD_append, if_pos hr]

theorem getLsbD_append_byte_high {w : Nat} (x : BitVec w) (b : Byte) (n : Nat) :
    (x ++ b).getLsbD (n + 8) = x.getLsbD n := by
  rw [BitVec.getLsbD_append, if_neg (Nat.not_lt.2 (Nat.le_add_left 8 n)), Nat.add_sub_cancel]

/-- Bit `r` of byte `m` of four bytes, byte 0 lowest. -/
theorem getLsbD_fourBytes (q : Nat → Byte) {m r : Nat} (hm : m < 4) (hr : r < 8) :
    (q 3 ++ q 2 ++ q 1 ++ q 0).getLsbD (r + 8 * m) = (q m).getLsbD r := by
  match m, hm with
  | 0, _ => exact getLsbD_append_byte_low _ _ hr
  | 1, _ => exact (getLsbD_append_byte_high _ _ r).trans (getLsbD_append_byte_low _ _ hr)
  | 2, _ =>
    calc
      _ = (q 3 ++ q 2 ++ q 1).getLsbD (r + 8) := getLsbD_append_byte_high _ _ (r + 8)
      _ = (q 3 ++ q 2).getLsbD r := getLsbD_append_byte_high _ _ r
      _ = (q 2).getLsbD r := getLsbD_append_byte_low _ _ hr
  | 3, _ =>
    calc
      _ = (q 3 ++ q 2 ++ q 1).getLsbD (r + 16) := getLsbD_append_byte_high _ _ (r + 16)
      _ = (q 3 ++ q 2).getLsbD (r + 8) := getLsbD_append_byte_high _ _ (r + 8)
      _ = (q 3).getLsbD r := getLsbD_append_byte_high _ _ r

/-- Bit `i` is in pair `i / 2`, whose byte of the column it fills by half. -/
theorem getLsbD_stretchedColumn (s : Byte) {i j : Nat} (hi : i < 8) (hj : j < 4) :
    (stretch (s.extractLsb' (2 * 3) 2) ++ stretch (s.extractLsb' (2 * 2) 2) ++ stretch (s.extractLsb' (2 * 1) 2)
      ++ stretch (s.extractLsb' (2 * 0) 2)).getLsbD (4 * i + j) = s.getLsbD i := by
  have hbit : 4 * i + j = 4 * (i % 2) + j + 8 * (i / 2) := by omega
  have hhalf : (4 * (i % 2) + j) / 4 = i % 2 := by omega
  rw [hbit, getLsbD_fourBytes (fun m => stretch (s.extractLsb' (2 * m) 2)) (by omega) (by omega),
    getLsbD_stretch _ (by omega), hhalf, BitVec.getLsbD_extractLsb', Nat.div_add_mod,
    decide_eq_true (Nat.mod_lt i Nat.two_pos), Bool.true_and]

/-- Settles O40: the table has four entries, and pair 0 is the low bits of its byte. -/
theorem stretchTable : Obligations.StretchTable :=
  ⟨by decide, by decide, by decide, by decide, by decide, fun b => congrArg stretch (pair_zero b)⟩

/-- Settles O41: the four bytes are those of `quad_eq`. -/
theorem quadStretchesEveryBitFourfold : Obligations.QuadStretchesEveryBitFourfold :=
  ⟨fun s => ⟨_, _, _, _, quad_eq s, rfl, rfl, rfl, rfl, fun _ hi _ hj => getLsbD_stretchedColumn s hi hj⟩,
    by decide, by decide, by decide, by decide⟩

/-! ## Digits -/

/-- Settles O38: a value the table has is the number of one of its glyphs, so the three reads are inside the table. -/
theorem digitIsSpacerAndStretchedColumns : Obligations.DigitIsSpacerAndStretchedColumns := by
  intro p v hv
  have hinside (j : Nat) (hj : j < 3) : p.font3[3 * v.toNat + j]? = some (p.readFont3 (off3 v + j)) := by
    have hoff : off3 v = 3 * v.toNat := Nat.mul_comm v.toNat 3
    rw [hoff]
    apply p.font3_getElem?
    rw [p.length_font3]
    omega
  refine ⟨p.length_font3, length_digit64 p v, _, _, _, hinside 0 (by decide), hinside 1 (by decide),
    hinside 2 (by decide), ?_⟩
  simp only [List.flatMap_def, List.map_const', List.length_range]
  rfl

/-- Settles O42: the three bytes at offset 0 are the documented glyph's, and their quads are known. -/
theorem digitZeroIsTheDocumentedGlyph : Obligations.DigitZeroIsTheDocumentedGlyph := by
  intro p
  have hread0 : p.readFont3 (off3 0 + 0) = 0x7F := p.readFont3_digit0 (j := 0) (by decide)
  have hread1 : p.readFont3 (off3 0 + 1) = 0x41 := p.readFont3_digit0 (j := 1) (by decide)
  have hread2 : p.readFont3 (off3 0 + 2) = 0x7F := p.readFont3_digit0 (j := 2) (by decide)
  obtain ⟨-, hquad7F, hquad41, -, -⟩ := quadStretchesEveryBitFourfold
  refine ⟨?table, ?bytes⟩
  case table =>
    rw [p.font3_eq]
    rfl
  case bytes => rw [digit64, hread0, hread1, hread2, hquad7F, hquad41]

end Machine
end Sys2Proof
end

section
/-! The renderer's plans (43_renderer.md R112 to R114, R119 to R121): a glyph is a run of WRITEs, and a string or the frame
is a transaction of glyphs. -/

namespace Sys2Proof.Machine

/-- A transaction of pieces writes one piece after another. -/
theorem txn_flatMap {α : Type} (p : Params) (m : Byte) (l : List α) (f : α → List Byte) :
    txn p m (l.flatMap f) = uopsStart p.addrW ++ uopsWrite m ++ (l.flatMap fun a => uopsWrites (f a)) ++ uopsStop := by
  rw [txn, uopsWrites, List.flatMap_assoc]
  rfl

theorem flatMap_fbEntries {α : Type} (s : State) (f : Byte → List α) :
    s.fbEntries.flatMap f = (List.range 8).flatMap fun k => f (s.fbEntry k) := List.flatMap_map ..

/-- The string up to its first terminator. -/
theorem stringAt_of_terminator {s : State} {ptr k : Nat} (hk : ptr + k < 4096) (hterm : s.srcByte (ptr + k) = s.cfg.term)
    (hbefore : ∀ j < k, s.srcByte (ptr + j) ≠ s.cfg.term) :
    s.stringAt ptr = some ((List.range k).map fun j => s.srcByte (ptr + j)) := by
  rw [stringAt_some, List.length_map, List.length_range]
  exact ⟨hk, hterm, hbefore, rfl⟩

theorem uops_rstr {s : State} {ptr : BitVec 12} {chars : List Byte} (h : s.stringAt ptr.toNat = some chars) :
    uops (.rstr ptr) s = txn s.cfg 0x40 (chars.flatMap (glyph5 s.cfg)) := by
  rw [uops, uopsRstr, h, Option.getD_some, Config.datMode]

theorem uops_rframe (s : State) :
    uops .rframe s = txn s.cfg 0x40 ((List.range 8).flatMap fun k => digit64 s.cfg (s.fbEntry k)) := by
  rw [uops, uopsRframe, flatMap_fbEntries, Config.datMode]

/-- Settles O34: each command is accepted by its plan on its operand condition, and the second clauses negate that. -/
theorem glyphCommandsSetTheirPlans : Obligations.GlyphCommandsSetTheirPlans := by
  intro s
  have haccept (i : Instr) (hi : i.isCommand = true) := (commandsAreAcceptedByTheirPlans i s hi).1
  have hdrop (i : Instr) (hi : i.isCommand = true) := (commandsAreAcceptedByTheirPlans i s hi).2
  refine ⟨fun v hlow hhigh => haccept (.rchar v) rfl ⟨hlow, hhigh⟩, fun v hbad => hdrop (.rchar v) rfl ?char,
    fun v hv => haccept (.rdigit v) rfl hv, fun v hv => hdrop (.rdigit v) rfl (Nat.not_lt.2 hv), fun hall => ?frame,
    fun ⟨k, hk, hbad⟩ => hdrop .rframe rfl fun hall => absurd (hall k hk) (Nat.not_lt.2 hbad)⟩
  case char =>
    rintro ⟨hlow, hhigh⟩
    omega
  case frame => rw [haccept .rframe rfl hall, uops_rframe]

/-- Settles O35: the first terminator makes the command legal and ends the string. -/
theorem stringIsRenderedToItsTerminator : Obligations.StringIsRenderedToItsTerminator := by
  intro s ptr k hk hterm hchars
  have hstring := stringAt_of_terminator hk hterm fun j hj => (hchars j hj).1
  rw [(commandsAreAcceptedByTheirPlans (.rstr ptr) s rfl).1 ⟨k, hk, hterm, hchars⟩, uops_rstr hstring, List.flatMap_map]

/-- Settles O43: both plans are transactions of glyphs. -/
theorem framedGlyphsEqualTheSameByHand : Obligations.FramedGlyphsEqualTheSameByHand :=
  ⟨fun _ _ _ hstring => (uops_rstr hstring).trans (txn_flatMap ..), fun s => (uops_rframe s).trans (txn_flatMap ..)⟩

end Sys2Proof.Machine
end

section
/-! Exceptions (60_exceptions.md R130, R135): no instruction fails. Under the invariant no turn faults, and the one turn that
is refused is a turn of the host on an access the register map gives no meaning. -/

namespace Sys2Proof.Machine

theorem exec_next (i : Instr) (s : State) : ∃ t, exec i s = .next t := by
  cases hu : i.toUop with
  | some u =>
    rw [← toInstr_of_toUop i u hu]
    exact ⟨_, exec_toInstr u s⟩
  | none => exact ⟨_, exec_command i s (Option.isNone_iff_eq_none.2 hu)⟩

/-- Settles O9: a micro-operation is performed, and a command is accepted or dropped. -/
theorem everyInstructionAnswersANextState : Obligations.EveryInstructionAnswersANextState := exec_next

theorem issueWord_next (w : CmdWord) (s : State) : ∃ t, issueWord w s = .next t := by
  unfold issueWord
  cases decodeWord w with
  | ok i => exact exec_next i s
  | error => exact ⟨_, rfl⟩

theorem regOf_eq_cmd_iff (n : Nat) : regOf n = some .cmd ↔ n = 0x0000 := by
  unfold regOf
  split_ifs <;> simp <;> omega

/-- A plan in progress has a micro-operation at `UPC` (10_state.md R15). -/
theorem State.Inv.upc_lt {s : State} (h : s.Inv) (hp : s.plan ≠ []) : s.upc < s.plan.length :=
  Nat.lt_of_le_of_ne h.upc_le fun hend => hp (h.upc_end hend).1

theorem step_sequencer_next {s : State} (h : s.Inv) (ht : s.nextTurn = .sequencer) : ∃ t, step s = .next t := by
  by_cases hp : s.plan = []
  · refine ⟨s.popTurn, ?_⟩
    have hfetch : s.popTurn.fetch = .idle := if_neg (by simp [State.busy, hp])
    rw [step, ht]
    simp only [sequencerTurn, hfetch]
  · exact ⟨_, step_sequencer s _ ht (List.getElem?_eq_getElem (h.upc_lt hp))⟩

/-- The host's next access is to a number that names no register, or a byte write to `CMD` (10_state.md R21). -/
def State.BadAccess (s : State) : Prop :=
  ∃ n rest, (regOf n = none ∧ (s.host = .read n :: rest ∨ ∃ v, s.host = .write8 n v :: rest)) ∨
    (n = 0x0000 ∧ ∃ v, s.host = .write8 n v :: rest)

section HostTurn
variable {s : State} (ht : s.nextTurn = .host)

include ht in
theorem step_noAccess (hh : s.host = []) : step s = .next s.popTurn := by
  rw [step_hostTurn ht]
  simp [hostTurn, hh]

include ht in
theorem step_partial_write8 {rest : List HostAction} {v : Byte} (hh : s.host = .write8 0x0000 v :: rest) :
    step s = .refused (.partialAccess 0x0000) := by
  have hr : regOf 0x0000 = some .cmd := rfl
  rw [step_hostTurn ht]
  simp [hostTurn, hh, hr]

include ht in
/-- A turn of the host is refused on a bad access and reaches a next state otherwise. -/
theorem step_host_cases : (∃ t, step s = .next t) ∨ (s.BadAccess ∧ ∃ r, step s = .refused r) := by
  match hh : s.host with
  | [] => exact .inl ⟨_, step_noAccess ht hh⟩
  | .issue w :: rest =>
    by_cases hp : s.plan = []
    · rw [step_issue ht hp hh]
      exact .inl (issueWord_next w _)
    · exact .inl ⟨_, step_issue_waits ht hp hh⟩
  | .write8 n v :: rest =>
    cases hr : regOf n with
    | none => exact .inr ⟨⟨n, rest, .inl ⟨hr, .inr ⟨v, hh⟩⟩⟩, _, step_unmapped_write8 ht hh hr⟩
    | some r =>
      by_cases hc : r = .cmd
      · obtain rfl : n = 0x0000 := (regOf_eq_cmd_iff n).1 (hc ▸ hr)
        exact .inr ⟨⟨_, rest, .inr ⟨rfl, v, hh⟩⟩, _, step_partial_write8 ht hh⟩
      · exact .inl ⟨_, step_write8 ht hh hr hc⟩
  | .read n :: rest =>
    cases hr : regOf n with
    | none => exact .inr ⟨⟨n, rest, .inl ⟨hr, .inl hh⟩⟩, _, step_unmapped_read ht hh hr⟩
    | some r => exact .inl ⟨_, step_read ht hh hr⟩

end HostTurn

/-- Under the invariant a step reaches a next state, or is the refusal of a bad access of the host. -/
theorem step_cases {s : State} (h : s.Inv) :
    (∃ t, step s = .next t) ∨ (s.nextTurn = .host ∧ s.BadAccess ∧ ∃ r, step s = .refused r) := by
  cases ht : s.nextTurn with
  | sequencer => exact .inl (step_sequencer_next h ht)
  | host => exact (step_host_cases ht).imp_right (.intro rfl)
  | env | reset => exact .inl ⟨_, by rw [step, ht]⟩

/-- Settles O60, by the two ways a step can end. -/
theorem nothingFaultsAndOnlyBadAccessesAreRefused : Obligations.NothingFaultsAndOnlyBadAccessesAreRefused := by
  intro s h
  obtain ⟨t, hnext⟩ | ⟨hturn, hbad, r, hrefused⟩ := step_cases h
  · rw [hnext]
    exact ⟨nofun, nofun⟩
  · rw [hrefused]
    exact ⟨nofun, fun _ _ => ⟨hturn, hbad⟩⟩

end Sys2Proof.Machine
end

section
/-! Reset at any moment (70_reset_and_hazards.md R150): what a reset turn does, in whatever state it strikes. -/

namespace Sys2Proof.Machine

/-- No byte is written in an empty memory (10_state.md R23). -/
@[simp] theorem Memory.read_nil (a : Nat) : Memory.read [] a = none := rfl

/-- A reset turn does not look at the plan in progress: it resets the block, whatever the state. -/
theorem step_reset {s : State} (ht : s.nextTurn = .reset) : step s = .next s.popTurn.resetBlock := by
  rw [step, ht]

/-- Settles O57: the state a reset turn leaves is `resetBlock`'s, with the turn taken off the schedule. -/
theorem resetStrikesAtAnyMoment : Obligations.ResetStrikesAtAnyMoment := by
  intro s ht
  refine ⟨s.popTurn.resetBlock, step_reset ht, ?_⟩
  simp

end Sys2Proof.Machine
end
